-- ==== Sys2Proof/Word.lean ====
section
/-! DEFINITION. The words of the framer: a byte, a 32-bit word, and the four bytes of a length field
(00_scope.md R8, R13; 10_state.md R30). Every value is unsigned. -/

namespace Sys2Proof

/-- A byte, bit 7 most significant (R13, R55). -/
abbrev Byte := BitVec 8

/-- An unsigned 32-bit value: `LEN_W` and `SEQ_W` of R8. -/
abbrev Word := BitVec 32

/-- Exactly four bytes in wire order, `b0` first: the length field of a frame (R30, R71). -/
structure Bytes4 where
  b0 : Byte
  b1 : Byte
  b2 : Byte
  b3 : Byte
deriving DecidableEq, Repr, Inhabited

end Sys2Proof
end

