-- ==== Sys2Proof/Config.lean ====
section
/-! DEFINITION. What the spec leaves as a parameter (00_scope.md R8): the configuration record that the
host drives, and, with no body, the injected capabilities (log 12) and the free values. Nothing in Lean can
evaluate an `opaque` constant of this file, so a claim about the model holds for every capability. -/

namespace Sys2Proof

/-- The configuration record `cfg` (R8) on the configuration inputs of R86. `blockSize` is carried and
read by no rule (R56). -/
structure Cfg where
  minFrameSize : Word
  maxFrameSize : Word
  cipherActive : Bool
  blockSize    : Byte
  macActive    : Bool
  macLength    : Word
deriving DecidableEq, Repr, Inhabited

/-- The state of the cipher capability (R10, R35): opaque to the framer, which threads it and never
looks inside. DESIGN CHOICE (log 5): it is carried as a byte sequence, so that State is plain data. -/
abbrev CipherState := List Byte

/-- The cipher state that one `Decrypt` call returns (R10, U12). Uninterpreted. -/
opaque Config.cipherNext : CipherState → List Byte → CipherState

/-- The byte at an index of what one `Decrypt` call returns (R10, U12). Uninterpreted. Every
length-preserving `Decrypt` is given by `cipherNext` and the byte at each index. -/
opaque Config.cipherByte : CipherState → List Byte → Nat → Byte

/-- `MacCompute(seq, lenf, body)` (R11, U12). Uninterpreted and total; its result may have any length. -/
opaque Config.macCompute : Word → Bytes4 → List Byte → List Byte

/-- The free value of a byte the reference encoder sends where R151 leaves it open: where several byte
sequences decrypt to the plain bytes, and where none does (log 21). -/
opaque Config.freeWireByte : CipherState → List Byte → Nat → Byte

/-- The free value of `CS` after a failure that interrupts the body read under a cipher (R136, R171,
U6: "any value", log 4). Applied to the model's counter `freeCount`, to the `CS` there was and to the bytes
collected, which an implementation may have decrypted. -/
opaque Config.freeCipherState : Nat → CipherState → List Byte → CipherState

/-- The free value of `L_CFG` after a reset step (R190 "unspecified", U8 "any value", log 3). Applied to the
model's counter `freeCount`. -/
opaque Config.freeCfg : Nat → Cfg

end Sys2Proof
end

