-- ==== Sys2Proof/Syntax.lean ====
section
/-! DEFINITION. The operations: one constructor for each row of spec/opcode_table.json
(30_encoding.md R90). -/

namespace Sys2Proof

/-- One frame on the wire, field by field (30_encoding.md R70, R71), before any encryption:
`packet_length`, `padding_length`, payload, padding, MAC. Whether the fields fit together is
`WireFrame.wf`, not the type. -/
structure WireFrame where
  packetLength  : Word
  paddingLength : Byte
  payload       : List Byte
  padding       : List Byte
  mac           : List Byte
deriving DecidableEq, Repr

/-- The rows of the opcode table. The two commands come from the host, the four events from the
transport, `SEQ_NEXT` is performed by the framer itself, and `FRAME` is the wire format: the bytes of
one frame on the transport channel (R88, R90). -/
inductive Instr where
  /-- READ_EXACT n (R101). -/
  | readExact (n : Word)
  /-- DECODE_FRAME (R131); the word's other bits are ignored (R83). -/
  | decodeFrame
  /-- T_BYTE b (R104). -/
  | tByte (b : Byte)
  /-- T_EOS (R105). -/
  | tEos
  /-- T_ERR k (R106); kind 3 is reserved and recorded as given (R81). -/
  | tErr (k : BitVec 2)
  /-- The reserved event kind `ev = 3`, performed as T_ERR IO (R81, R106). -/
  | tErrReserved
  /-- SEQ_NEXT (R120): internal, no word selects it (R83). -/
  | seqNext
  /-- FRAME(payload, P, padding, mac) (R70, R88): the transport offers the bytes of one frame. -/
  | frame (f : WireFrame)
deriving DecidableEq, Repr

end Sys2Proof
end

