-- ==== Sys2Proof/Machine/State.lean ====
section
/-! DEFINITION. The state of one framer instance (10_state.md R20), the outside world's side of its
channels as plain data, and the reasons a step can stop. -/

namespace Sys2Proof.Machine

/-- `CMD` (R21). Code 3 is never held and is no value of the type. -/
inductive Cmd where
  | none
  | readExact
  | decodeFrame
deriving DecidableEq, Repr

/-- `FST` (R22). Codes 5 to 7 are never held and are no values of the type; `done` is passed through
inside a commit. -/
inductive Fst where
  | awaitingLength
  | awaitingBody
  | awaitingMac
  | done
  | failed
deriving DecidableEq, Repr

/-- `ERR_CODE` (R32), which is also the `status` of a response (R85). -/
inductive ErrCode where
  | none
  | transportError
  | shortRead
  | protocolViolation
  | integrityViolation
deriving DecidableEq, Repr

/-- `ERR_REASON` (R33). -/
inductive Reason where
  | none
  | lengthOutOfBounds
  | paddingTooShort
  | paddingExceedsPacket
deriving DecidableEq, Repr

/-- The failure record (R32 to R34): `ERR_CODE`, `ERR_KIND`, `ERR_REASON`, `ERR_EXPECTED`,
`ERR_ACTUAL`. `kind` is a 2-bit field because the reserved value 3 is recorded as given (R81). -/
structure FailureRecord where
  code     : ErrCode
  kind     : BitVec 2
  reason   : Reason
  expected : Word
  actual   : Word
deriving DecidableEq, Repr

/-- The failure record that says no failure: every field 0 (R20). -/
def FailureRecord.clear : FailureRecord :=
  { code := .none, kind := 0, reason := .none, expected := 0, actual := 0 }

/-- A response (R84): a byte sequence, or a failure with no data to put a partial result in. -/
inductive Response where
  | ok (data : List Byte)
  | fail (record : FailureRecord)
deriving DecidableEq, Repr

/-- A command as it was issued (R82): which one, and the count of a READ_EXACT. -/
inductive Command where
  | readExact (n : Word)
  | decodeFrame
deriving DecidableEq, Repr

/-- A response with its command, as a run shows it (R65). -/
structure Answer where
  command  : Command
  response : Response
deriving DecidableEq, Repr

/-- One line of a script (R87, R88): what the outside does next. A command word waits on the command
channel, an event word on the transport channel. Two of the lines are not steps: CFG, the configuration
inputs the host drives from here on, and FRAME, which stands for the `T_BYTE`s it expands to. -/
inductive Line where
  | reset
  | config (c : Cfg)
  | command (c : BitVec 33)
  | event (t : BitVec 10)
  | frame (f : WireFrame)
deriving DecidableEq, Repr

/-- The three kinds of step, and there are no others (R7): reset, the acceptance of one command, the
consumption of one transport event. -/
inductive StepKind where
  | reset
  | command (c : BitVec 33)
  | event (t : BitVec 10)
deriving DecidableEq, Repr

/-- What a script comes to: the step that is taken, the configuration inputs it finds, and the lines that
stay offered after it. -/
structure Taken where
  kind    : StepKind
  inputs  : Cfg
  offered : List Line
deriving DecidableEq, Repr

/-- Why a step can stop with a fault: nothing (log 17). The four failures of the spec are all states the machine
goes on from (R170), and no rule names any other stop. -/
inductive Fault where
deriving DecidableEq, Repr

/-- Why a step can be refused. -/
inductive Refusal where
  /-- Raised by exec for an operation that has no meaning yet. Safe: no claim covers it. -/
  | notModelled (mnemonic : String)
  /-- Raised by READ_EXACT n with `n > BUF_CAP`, which the spec refuses (R43, R101, U2). Safe. -/
  | readExceedsBufCap
  /-- Raised by DECODE_FRAME under a configuration that is not well-formed, which the spec refuses
  (R9, R131, U3). Safe. -/
  | configNotWellFormed
deriving DecidableEq, Repr

/-- The state. The first block is R20, register by register; the second is the outside's side of the
channels (R36, R38, R65); the third is the instance's parameters (R8) and the model's own counter. -/
structure State where
  /-- `CMD` (R21). -/
  cmd : Cmd
  /-- `FST` (R22). -/
  fst : Fst
  /-- `RD_ACTIVE` (R23). -/
  rdActive : Bool
  /-- `RD_N` (R24). -/
  rdN : Word
  /-- `RD_K` (R25). -/
  rdK : Word
  /-- `ABUF` (R26). -/
  abuf : List Byte
  /-- `SEQ` (R27). -/
  seq : Word
  /-- `PKT_LEN` (R28). -/
  pktLen : Word
  /-- `PAD_LEN` (R29). -/
  padLen : Byte
  /-- `LENF` (R30). -/
  lenf : Bytes4
  /-- `BODY` (R31). -/
  body : List Byte
  /-- `ERR_CODE`, `ERR_KIND`, `ERR_REASON`, `ERR_EXPECTED`, `ERR_ACTUAL` (R32 to R34). -/
  err : FailureRecord
  /-- `CS` (R35). -/
  cs : CipherState
  /-- `L_CFG` (R36). -/
  lCfg : Cfg
  /-- `CUR` (R37): a ghost, read by no rule. -/
  cur : Nat
  /-- The configuration inputs, as the last step found them (R36, R86); a CFG line of `script` drives them
  for the steps behind it (log 6). Not a register. -/
  cfg : Cfg
  /-- The responses emitted so far, each with its command, oldest first (R38, R61, R65). Read by no rule
  (log 14). -/
  responses : List Answer
  /-- What the outside offers, in the order it comes to offer it (R12, R53, R87; log 6). -/
  script : List Line
  /-- `BUF_CAP` (R8, U4): a parameter of the instance; no step writes it. -/
  bufCap : Nat
  /-- `CS_INIT` (R8, U12): a parameter of the instance; no step writes it. -/
  csInit : CipherState
  /-- The model's own: how many free values have been used so far (log 18). -/
  freeCount : Nat
deriving DecidableEq, Repr

/-- A configuration record with every field 0, `BLOCK_SIZE` 8 (R8 "8 when CIPHER_ACTIVE is false").
The value of `L_CFG` and of the configuration inputs in `State.reset`: DESIGN CHOICE (log 1). -/
def idleCfg : Cfg :=
  { minFrameSize := 0, maxFrameSize := 0, cipherActive := false, blockSize := 8,
    macActive := false, macLength := 0 }

/-- The machine right after reset (R48, R190): every register at its reset value. `L_CFG` and the
configuration inputs, which the spec gives no reset value, are `idleCfg` (log 1); `BUF_CAP` is 2^32 − 1,
at which no command is refused, and `CS_INIT` is empty (log 2); nothing is offered and nothing has been
answered. -/
def State.reset : State :=
  { cmd := .none, fst := .awaitingLength, rdActive := false, rdN := 0, rdK := 0, abuf := [],
    seq := 0, pktLen := 0, padLen := 0, lenf := { b0 := 0, b1 := 0, b2 := 0, b3 := 0 }, body := [],
    err := FailureRecord.clear, cs := [], lCfg := idleCfg, cur := 0,
    cfg := idleCfg, responses := [], script := [],
    bufCap := 4294967295, csInit := [], freeCount := 0 }

end Sys2Proof.Machine
end

