-- ==== Sys2Proof/Machine/Flags.lean ====
section
/-! DEFINITION. The derived status signals (10_state.md R40), the codes of the control registers (R21,
R22, R32, R33) and the status outputs the host can read (R39). There are no condition codes. -/

namespace Sys2Proof.Machine

/-- `BUSY` (R40). -/
def State.busy (s : State) : Bool := decide (s.cmd ≠ .none)

/-- `DEAD` (R40). -/
def State.dead (s : State) : Bool := decide (s.fst = .failed)

/-- `cmd_ready` (R40): a command is accepted exactly when this holds. -/
def State.cmdReady (s : State) : Bool := decide (s.cmd = .none)

/-- `t_ready` (R40, R52): a transport event is consumed exactly when this holds. -/
def State.tReady (s : State) : Bool := s.rdActive && decide (s.rdK < s.rdN)

/-- The 2-bit code of `CMD` (R21). -/
def cmdCode : Cmd → BitVec 2
  | .none => 0
  | .readExact => 1
  | .decodeFrame => 2

/-- The 3-bit code of `FST` (R22). -/
def fstCode : Fst → BitVec 3
  | .awaitingLength => 0
  | .awaitingBody => 1
  | .awaitingMac => 2
  | .done => 3
  | .failed => 4

/-- The 3-bit code of `ERR_CODE` (R32) and of a response's `status` (R85). -/
def errCodeBits : ErrCode → BitVec 3
  | .none => 0
  | .transportError => 1
  | .shortRead => 2
  | .protocolViolation => 3
  | .integrityViolation => 4

/-- The 2-bit code of `ERR_REASON` (R33, R163). -/
def reasonBits : Reason → BitVec 2
  | .none => 0
  | .lengthOutOfBounds => 1
  | .paddingTooShort => 2
  | .paddingExceedsPacket => 3

/-- The status outputs (R39): all that the host can read, with no side effect. -/
structure StatusOutputs where
  cmd      : BitVec 2
  fst      : BitVec 3
  seq      : Word
  code     : BitVec 3
  kind     : BitVec 2
  reason   : BitVec 2
  expected : Word
  actual   : Word
deriving DecidableEq, Repr

/-- The status outputs at a resting state (R39). -/
def State.statusOutputs (s : State) : StatusOutputs :=
  { cmd := cmdCode s.cmd, fst := fstCode s.fst, seq := s.seq, code := errCodeBits s.err.code,
    kind := s.err.kind, reason := reasonBits s.err.reason, expected := s.err.expected,
    actual := s.err.actual }

/-- The 103-bit header of a response (R84): `status`, `kind`, `reason`, `expected`, `actual`, `len`,
most significant first. A success has every failure field 0; a failure has `len = 0`. -/
def responseHeader : Response → BitVec 103
  | .ok data => (BitVec.ofNat 32 data.length).setWidth 103
  | .fail r =>
    (errCodeBits r.code).setWidth 103 <<< 100 ||| r.kind.setWidth 103 <<< 98
      ||| (reasonBits r.reason).setWidth 103 <<< 96 ||| r.expected.setWidth 103 <<< 64
      ||| r.actual.setWidth 103 <<< 32

/-- The data bytes that follow the header (R84). -/
def responseData : Response → List Byte
  | .ok data => data
  | .fail _ => []

end Sys2Proof.Machine
end

