-- ==== Sys2Proof/WellFormed.lean ====
section
/-! DEFINITION. Which operations are well-formed: every operand value of the six words is legal (R82,
R80), and a frame's fields fit together as R70 and R78 say. -/

namespace Sys2Proof

/-- The fields of a frame fit together (R70, R71, R78 and the FRAME row's field notes): `packet_length`
counts the padding-length byte, the payload and the padding; the padding has `padding_length` bytes;
`padding_length ≥ 4`. `1 + padding_length ≤ packet_length` follows. -/
def WireFrame.wf (f : WireFrame) : Bool :=
  decide (f.packetLength.toNat = 1 + f.payload.length + f.padding.length)
    && decide (f.padding.length = f.paddingLength.toNat)
    && decide (4 ≤ f.paddingLength.toNat)

/-- Well-formed operations. `SEQ_NEXT` has no operands; the events and commands admit every value of
their operand fields. -/
def Instr.wf : Instr → Bool
  | .readExact _ => true
  | .decodeFrame => true
  | .tByte _ => true
  | .tEos => true
  | .tErr _ => true
  | .tErrReserved => true
  | .seqNext => true
  | .frame f => f.wf

end Sys2Proof
end

