-- ==== Sys2Proof/Decode.lean ====
section
/-! DEFINITION. Encodings (30_encoding.md): the byte order of the length field, the command word, the
event word, the wire format, the decoder, and after it the encoder. -/

namespace Sys2Proof

/-! ### Byte sequences and byte order (R14, R55, R72) -/

/-- `be32` of R14 and R72: the first byte is the most significant, bits 31:24 (R71). -/
def be32 (b : Bytes4) : Word :=
  b.b0.setWidth 32 <<< 24 ||| b.b1.setWidth 32 <<< 16 ||| b.b2.setWidth 32 <<< 8 ||| b.b3.setWidth 32

/-- `be32bytes` of R14, the inverse of `be32`. -/
def be32bytes (v : Word) : Bytes4 :=
  { b0 := v.extractLsb' 24 8, b1 := v.extractLsb' 16 8, b2 := v.extractLsb' 8 8, b3 := v.extractLsb' 0 8 }

/-- The four bytes in wire order. -/
def bytes4List (b : Bytes4) : List Byte := [b.b0, b.b1, b.b2, b.b3]

/-- The first four bytes of a sequence. Used on sequences of four bytes only (R133); a missing byte
would be 0. -/
def bytes4OfList (l : List Byte) : Bytes4 :=
  { b0 := l.getD 0 0, b1 := l.getD 1 0, b2 := l.getD 2 0, b3 := l.getD 3 0 }

/-- `s[a..b)` of R14. -/
def slice (l : List Byte) (a b : Nat) : List Byte := (l.take b).drop a

/-! ### The decoder -/

/-- Why a sequence of bits is no operation. -/
inductive DecodeError where
  /-- There is no word at all (R83: SEQ_NEXT has no encoding). -/
  | noWord
  /-- A value that does not fit the 10 bits of an event word (R80). -/
  | notAnEventWord
  /-- A value that does not fit the 33 bits of a command word (R82). -/
  | notACommandWord
  /-- Fewer than the 4 bytes of a length field (R71). -/
  | frameLengthCut
  /-- Fewer than `packet_length` bytes after the length field (R71). -/
  | frameBodyCut
  /-- `packet_length = 0`: there is no padding-length byte (R73). -/
  | frameBodyEmpty
  /-- `padding_length < 4` (R78). -/
  | framePaddingTooShort
  /-- `1 + padding_length > packet_length` (R78). -/
  | framePaddingExceedsPacket
deriving DecidableEq, Repr

/-- The operation a command word selects (R82): bit 32 alone. Total. -/
def decodeCommand (c : BitVec 33) : Instr :=
  if c.getLsbD 32 then .decodeFrame else .readExact (c.extractLsb' 0 32)

/-- The operation an event word selects (R80, R81): bits 9:8 alone. Total. -/
def decodeEvent (t : BitVec 10) : Instr :=
  if t.extractLsb' 8 2 = 0#2 then .tByte (t.extractLsb' 0 8)
  else if t.extractLsb' 8 2 = 1#2 then .tEos
  else if t.extractLsb' 8 2 = 2#2 then .tErr (t.extractLsb' 0 2)
  else .tErrReserved

/-- The padding-length byte, payload, padding and MAC that follow a length field `len` (R71): the body
is the next `packet_length` bytes and the MAC is what is left. -/
def decodeWireBody (len : Word) (rest : List Byte) : Except DecodeError WireFrame :=
  if rest.length < len.toNat then .error .frameBodyCut
  else match rest.take len.toNat with
    | [] => .error .frameBodyEmpty
    | p :: r =>
      if p.toNat < 4 then .error .framePaddingTooShort
      else if 1 + p.toNat > len.toNat then .error .framePaddingExceedsPacket
      else .ok { packetLength := len, paddingLength := p,
                 payload := r.take (len.toNat - p.toNat - 1),
                 padding := r.drop (len.toNat - p.toNat - 1),
                 mac := rest.drop len.toNat }

/-- The frame a byte sequence is on the wire, with no cipher (R70, R71). -/
def decodeWire : List Byte → Except DecodeError WireFrame
  | b0 :: b1 :: b2 :: b3 :: rest =>
    decodeWireBody (be32 { b0 := b0, b1 := b1, b2 := b2, b3 := b3 }) rest
  | _ => .error .frameLengthCut

/-- A word on the channel it belongs to (R91: "a word's channel says whether it is a command or an
event"), or the bytes of a frame. -/
inductive Code where
  | command (c : BitVec 33)
  | event (t : BitVec 10)
  | wire (w : List Byte)
deriving DecidableEq, Repr

/-- The decoder: total, rejecting by name. Every command word and every event word is an operation. -/
def decode : Code → Except DecodeError Instr
  | .command c => .ok (decodeCommand c)
  | .event t => .ok (decodeEvent t)
  | .wire w => (decodeWire w).map Instr.frame

/-! ### The encoder, from the same tables -/

/-- The bytes of a frame in wire order with no cipher (R70): length field, padding-length byte,
payload, padding, MAC. -/
def encodeWire (f : WireFrame) : List Byte :=
  bytes4List (be32bytes f.packetLength) ++ (f.paddingLength :: (f.payload ++ f.padding)) ++ f.mac

/-- The event word of a byte (R80): `t[9:8] = 0`, `t[7:0]` the byte. -/
def byteEvent (b : Byte) : BitVec 10 := b.setWidth 10

/-- The word or bytes of an operation, ignored bits written as 0; none for SEQ_NEXT, which has no
encoding (R83). -/
def encode : Instr → Option Code
  | .readExact n => some (.command (n.setWidth 33))
  | .decodeFrame => some (.command 0x100000000#33)
  | .tByte b => some (.event (byteEvent b))
  | .tEos => some (.event 0x100#10)
  | .tErr k => some (.event (0x200#10 ||| k.setWidth 10))
  | .tErrReserved => some (.event 0x300#10)
  | .seqNext => none
  | .frame f => some (.wire (encodeWire f))

/-! ### Words given as bytes

The channels are wires and the spec lays no word out in bytes. DESIGN CHOICE (log 9): the host's table
words come least significant byte first; a word of at most 4 bytes is an event word, one of 5 bytes a
command word (33 bits need 5 bytes), and more bytes are the bytes of a frame. -/

/-- The `k` low bytes of a number, least significant first. -/
def bytesLE : Nat → Nat → List Byte
  | 0, _ => []
  | k + 1, w => BitVec.ofNat 8 w :: bytesLE k (w / 256)

/-- The number whose bytes these are, least significant first. -/
def natOfLE : List Byte → Nat
  | [] => 0
  | b :: bs => b.toNat + 256 * natOfLE bs

/-- The decoder on bytes: total, rejecting by name. -/
def decodeBytes (l : List Byte) : Except DecodeError Instr :=
  if l.length = 0 then .error .noWord
  else if l.length ≤ 4 then
    if natOfLE l < 2 ^ 10 then decode (.event (BitVec.ofNat 10 (natOfLE l))) else .error .notAnEventWord
  else if l.length = 5 then
    if natOfLE l < 2 ^ 33 then decode (.command (BitVec.ofNat 33 (natOfLE l))) else .error .notACommandWord
  else decode (.wire l)

/-- The operation the decoder reads from a row's word as spec/opcode_table.json numbers its bits. -/
def decodeTableWord (nbits w : Nat) : Option Instr :=
  match decodeBytes (bytesLE ((nbits + 7) / 8) w) with
  | .ok i => some i
  | .error _ => none

end Sys2Proof
end

