-- ==== Sys2Proof/Machine/Operands.lean ====
section
/-! DEFINITION. The operands: the configuration record a DECODE_FRAME reads (R9), the capabilities the
framer calls (R10, R11), the payload inside a body (R140), and the wire bytes FRAME stands for (R151). -/

namespace Sys2Proof.Machine

/-- Configuration well-formedness (R9), for a buffer of `cap` bytes. -/
def cfgWellFormed (cap : Nat) (c : Cfg) : Bool :=
  decide (c.maxFrameSize.toNat ≤ cap) && (!c.macActive || decide (c.macLength.toNat ≤ cap))

/-- `Decrypt` (R10): the next cipher state and as many bytes as it was given. -/
def decrypt (cs : CipherState) (b : List Byte) : CipherState × List Byte :=
  (Config.cipherNext cs b, b.mapIdx fun i _ => Config.cipherByte cs b i)

/-- The framer's two `Decrypt` calls on the bytes of a frame before its MAC (R10, R151): the first four,
then the rest. -/
def decryptFrame (cs : CipherState) (x : List Byte) : CipherState × List Byte :=
  let len := decrypt cs (x.take 4)
  let body := decrypt len.1 (x.drop 4)
  (body.1, len.2 ++ body.2)

/-- Every byte sequence of a length. -/
def byteLists : Nat → List (List Byte)
  | 0 => [[]]
  | n + 1 => (byteLists n).flatMap fun l => (List.range 256).map fun v => BitVec.ofNat 8 v :: l

/-- The sender's `Encrypt` (R151): bytes from which the framer's two `Decrypt` calls give `x`. Where one
sequence alone does, it is that one. DESIGN CHOICE (log 21): where several do, R151 allows any of them, and
it is the free value if that is one, else the first of them; where none does, R151 has no `Encrypt`, and it
is the free value. -/
def encrypt (cs : CipherState) (x : List Byte) : List Byte :=
  let free := x.mapIdx fun i _ => Config.freeWireByte cs x i
  if (decryptFrame cs free).2 = x then free
  else ((byteLists x.length).find? fun y => decide ((decryptFrame cs y).2 = x)).getD free

/-- The payload of a body (R140): `BODY[1 .. PKT_LEN − PAD_LEN)`. -/
def payloadOf (body : List Byte) (pktLen : Word) (padLen : Byte) : List Byte :=
  slice body 1 (pktLen.toNat - padLen.toNat)

/-- The body of a frame before encryption (R71, R151): padding-length byte, payload, padding. -/
def frameBody (f : WireFrame) : List Byte := f.paddingLength :: (f.payload ++ f.padding)

/-- What the sender makes of a length field and a body (R151, `x`): encrypted where a cipher is active. -/
def encipher (c : Cfg) (cs : CipherState) (x : List Byte) : List Byte :=
  if c.cipherActive then encrypt cs x else x

/-- The MAC the sender appends (R151, `mac`): computed over the plain bytes, nothing where none is active. -/
def senderMac (c : Cfg) (seq : Word) (lenf : Bytes4) (body : List Byte) : List Byte :=
  if c.macActive then Config.macCompute seq lenf body else []

/-- `EncodeFrame` (R151), the reference encoder, line by line; none where what it requires does not hold. -/
def encodeFrame (c : Cfg) (seq : Word) (cs : CipherState) (payload : List Byte) (p : Byte)
    (padding : List Byte) : Option (List Byte) :=
  if 4 ≤ p.toNat ∧ padding.length = p.toNat ∧ 1 + payload.length + p.toNat < 2 ^ 32 then
    let lenf := be32bytes (BitVec.ofNat 32 (1 + payload.length + p.toNat))
    let body := p :: (payload ++ padding)
    let mac := senderMac c seq lenf body
    let x := encipher c cs (bytes4List lenf ++ body)
    some (x ++ mac)
  else none

/-- The frame, field by field, that the reference encoder sends for a payload and its padding (R151): the
operands with which FRAME stands for `encodeFrame`'s bytes. -/
def referenceFrame (c : Cfg) (seq : Word) (payload : List Byte) (p : Byte) (padding : List Byte) :
    WireFrame :=
  let len : Word := BitVec.ofNat 32 (1 + payload.length + p.toNat)
  { packetLength := len, paddingLength := p, payload := payload, padding := padding,
    mac := senderMac c seq (be32bytes len) (p :: (payload ++ padding)) }

/-- The wire bytes of FRAME(payload, P, padding, mac) (R88): the reference encoder's, with the MAC that is
its operand, so that a frame with a wrong MAC can be offered too. The MAC is never encrypted. DESIGN CHOICE
(log 22): where the fields are not what R151 requires, so that `encodeFrame` answers none, they are offered
as they stand, in the same order. -/
def frameWire (c : Cfg) (cs : CipherState) (f : WireFrame) : List Byte :=
  encipher c cs (bytes4List (be32bytes f.packetLength) ++ frameBody f) ++ f.mac

end Sys2Proof.Machine
end

