-- ==== Sys2Proof/Machine/Ops.lean ====
section
/-! DEFINITION. The shared operations: responding, failure entry (60_exceptions.md R170), reset
(70_reset_and_hazards.md R190), starting and clearing an exact read (R102, R107), the sequence counter's
`next` (R120), and which step what is offered comes to (R7, R87, R88). -/

namespace Sys2Proof.Machine

/-- `Respond(r)` (R61, R84): the response to `c` goes out, after all earlier ones (R65: "each with its
command"). -/
def respond (c : Command) (r : Response) (s : State) : State :=
  { s with responses := s.responses ++ [{ command := c, response := r }] }

/-- The command in progress: `RD_N` is the count of a direct read (R24). With none in progress, where no
read is outstanding (R45), it is taken for DECODE_FRAME, as in R107 (log 13). -/
def State.command (s : State) : Command :=
  match s.cmd with
  | .readExact => .readExact s.rdN
  | .decodeFrame => .decodeFrame
  | .none => .decodeFrame

/-! ### The exact read -/

/-- No read is outstanding: the clearing that read completion (R107) and failure entry (R170) share. -/
def clearRead (s : State) : State :=
  { s with rdActive := false, rdN := 0, rdK := 0, abuf := [] }

/-- `StartRead(n)` for `n > 0` (R102): the read is outstanding and has collected nothing. -/
def beginRead (n : Word) (s : State) : State :=
  { s with rdActive := true, rdN := n, rdK := 0, abuf := [] }

/-- `StartRead(n)` (R102). An empty read completes at once, in the same step, without touching the
transport: `onEmpty` is what `ReadDone([])` goes on with once the read is cleared. -/
def startRead (n : Word) (onEmpty : State → State) (s : State) : State :=
  if n = 0 then onEmpty (clearRead s) else beginRead n s

/-! ### The frame in progress -/

/-- The frame registers back to their reset values: the clearing that commit (R145) and failure entry
(R170) share. -/
def clearFrame (s : State) : State :=
  { s with pktLen := 0, padLen := 0, lenf := { b0 := 0, b1 := 0, b2 := 0, b3 := 0 }, body := [] }

/-- `SEQ_NEXT` (R120): the current value, and the counter one higher modulo 2^32. -/
def seqNext (s : State) : Word × State := (s.seq, { s with seq := s.seq + 1 })

/-! ### Failure entry: the one way an exception is taken, and the one way out of it -/

/-- The four typed failures with their fields (R160 to R164). -/
inductive Failure where
  | transportError (kind : BitVec 2)
  | shortRead (expected actual : Word)
  | protocolViolation (reason : Reason)
  | integrityViolation
deriving DecidableEq, Repr

/-- What is recorded of a failure (R170): the fields that are not this failure's are 0. -/
def failureRecord : Failure → FailureRecord
  | .transportError k => { code := .transportError, kind := k, reason := .none, expected := 0, actual := 0 }
  | .shortRead e a => { code := .shortRead, kind := 0, reason := .none, expected := e, actual := a }
  | .protocolViolation r => { code := .protocolViolation, kind := 0, reason := r, expected := 0, actual := 0 }
  | .integrityViolation => { code := .integrityViolation, kind := 0, reason := .none, expected := 0, actual := 0 }

/-- Failure entry (R170), the same for all four failures and both commands: the record is latched, the
read and the frame are cleared, the command `c` ends, the direction is dead, and the failure goes out as
its response. `SEQ`, `CUR`, `L_CFG` and `CS` are left (R171). -/
def raise (c : Command) (f : Failure) (s : State) : State :=
  respond c (.fail (failureRecord f))
    { clearFrame (clearRead { s with err := failureRecord f }) with cmd := .none, fst := .failed }

/-- What a failure of the transport does to `CS` (R136, R171, U6): it is unspecified after a body read
fails midway under a cipher, because an implementation may have decrypted what had arrived; otherwise it
is as the last `Decrypt` left it. The unspecified value is a free value (log 4). -/
def loseCipher (s : State) : State :=
  if s.cmd = .decodeFrame ∧ s.fst = .awaitingBody ∧ s.lCfg.cipherActive = true ∧ s.rdK ≠ 0 then
    { s with cs := Config.freeCipherState s.freeCount s.cs s.abuf, freeCount := s.freeCount + 1 }
  else s

/-- The reset step (R190): the creation of a new direction state, and the only way out of `FAILED`
(R174). There is no return from a failure. `L_CFG` becomes unspecified: a free value (U8, log 3). The
configuration inputs and the transport are not reset (R192); no response goes out. -/
def resetStep (s : State) : State :=
  { s with
    cmd := .none, fst := .awaitingLength, rdActive := false, rdN := 0, rdK := 0, abuf := [],
    seq := 0, pktLen := 0, padLen := 0, lenf := { b0 := 0, b1 := 0, b2 := 0, b3 := 0 }, body := [],
    err := FailureRecord.clear, cs := s.csInit, cur := 0,
    lCfg := Config.freeCfg s.freeCount, freeCount := s.freeCount + 1 }

/-! ### The outside's side of the channels -/

/-- `T_BYTES` (R88): each byte an event word of its own, in order. -/
def byteLines (bs : List Byte) : List Line := bs.map fun b => .event (byteEvent b)

/-- The transport offers `bs` ahead of everything offered. -/
def offerBytes (bs : List Byte) (s : State) : State := { s with script := byteLines bs ++ s.script }

/-- The wire bytes FRAME expands to (R88). To a DECODE_FRAME they are the encoder's under the configuration
and the cipher state that frame is decoded with. A direct read reads no configuration (R36), and what it is
offered are the bytes of the wire format itself (R70; log 8). Neither looks at whether the fields fit
together (DESIGN CHOICE, log 22). -/
def State.frameBytes (s : State) (f : WireFrame) : List Byte :=
  match s.cmd with
  | .decodeFrame => frameWire s.lCfg s.cs f
  | .readExact => encodeWire f
  | .none => encodeWire f

/-- The step that a line is, where it can be taken now (R12, R52, R190), and the lines that are left of it:
reset always, a command with `cmd_ready`, an event with `t_ready`. Of a FRAME it is the first of its bytes,
and the others are left as the `T_BYTE`s they are (R88). CFG is no step (R87). -/
def lineStep (s : State) : Line → Option (StepKind × List Line)
  | .reset => some (.reset, [])
  | .config _ => none
  | .command c => if s.cmdReady then some (.command c, []) else none
  | .event t => if s.tReady then some (.event t, []) else none
  | .frame f =>
    if s.tReady then
      match s.frameBytes f with
      | [] => none
      | b :: bs => some (.event (byteEvent b), byteLines bs)
    else none

/-- The configuration inputs after a line (R36, R87): what a CFG line says, otherwise as they were. -/
def lineInputs : Line → Cfg → Cfg
  | .config c, _ => c
  | .reset, c => c
  | .command _, c => c
  | .event _, c => c
  | .frame _, c => c

/-- Whether a line that is not taken stays offered (R52, R196). A CFG line does not: it has taken effect. -/
def lineStays : Line → Bool
  | .config _ => false
  | .reset => true
  | .command _ => true
  | .event _ => true
  | .frame _ => true

/-- The first line that is a step now. `c` are the configuration inputs before the lines; the CFG lines on
the way drive them (R87: "not a step"), and a command or an event that is not accepted stays on its channel
(R52, R196). -/
def takeLine (s : State) (c : Cfg) : List Line → Option Taken
  | [] => none
  | l :: rest =>
    match lineStep s l with
    | some (k, left) => some { kind := k, inputs := c, offered := left ++ rest }
    | none =>
      match takeLine s (lineInputs l c) rest with
      | some t => some { t with offered := if lineStays l then l :: t.offered else t.offered }
      | none => none

/-- `s` as a step that is taken finds it (R36): the configuration inputs as they are then, and what stays
offered. No register changes. -/
def State.atStep (s : State) (t : Taken) : State := { s with cfg := t.inputs, script := t.offered }

end Sys2Proof.Machine
end

