-- ==== Sys2Proof/Machine/FrameAssembler.lean ====
section
/-! DEFINITION. The FrameAssembler (42_frame_assembler.md): the stages of a frame, last stage first, and
DECODE_FRAME. The stages run inside the step that completes a read. -/

namespace Sys2Proof.Machine

/-- `Commit()` (R145): the payload goes out, the counter advances, the frame registers are cleared and
the framer is idle at the frame boundary. `DONE` is held only inside the step. -/
def commit (s : State) : State :=
  let payload := payloadOf s.body s.pktLen s.padLen
  let s := respond .decodeFrame (.ok payload) { s with fst := .done }
  let s := clearFrame (seqNext s).2
  { s with fst := .awaitingLength, cmd := .none }

/-- `MacStage(data)` (R143): `SEQ` is read, not incremented, and the received bytes are used as they
came (R142). -/
def macStage (data : List Byte) (s : State) : State :=
  if Config.macCompute s.seq s.lenf s.body = data then commit s else raise .decodeFrame .integrityViolation s

/-- `ExtractPadding()` and `PaddingCheck()` (R138, R139), then the rest of the body stage (R137):
`none` where the body passes, else the failure, tested in the document's order. -/
def paddingFault (body : List Byte) (pktLen : Word) : Option Failure :=
  if pktLen = 0 then some (.protocolViolation .paddingExceedsPacket)
  else if (body.headD 0).toNat < 4 then some (.protocolViolation .paddingTooShort)
  else if 1 + (body.headD 0).toNat > pktLen.toNat then some (.protocolViolation .paddingExceedsPacket)
  else none

/-- A `Decrypt` call where a cipher is active (R133, R137): the state with the new `CS`, and the
decrypted bytes. With no cipher `CS` is not touched. -/
def decryptIfActive (data : List Byte) (s : State) : State × List Byte :=
  if s.lCfg.cipherActive then
    ({ s with cs := (decrypt s.cs data).1 }, (decrypt s.cs data).2)
  else (s, data)

/-- What follows a body that passed the padding check (R137, R141, R145). -/
def afterPadding (s : State) : State :=
  if s.lCfg.macActive then startRead s.lCfg.macLength (macStage []) { s with fst := .awaitingMac }
  else commit s

/-- `BodyStage(data)` (R137). -/
def bodyStage (data : List Byte) (s : State) : State :=
  let (s, data) := decryptIfActive data s
  let s := { s with body := data }
  match paddingFault data s.pktLen with
  | some f => raise .decodeFrame f s
  | none => afterPadding { s with padLen := data.headD 0 }

/-- `BoundsCheck()` (R134): unsigned, both bounds inclusive. -/
def lengthInBounds (c : Cfg) (len : Word) : Bool :=
  decide (c.minFrameSize ≤ len) && decide (len ≤ c.maxFrameSize)

/-- `LengthStage(data)` (R133): the length is decrypted, decoded and checked before anything more is
read; an empty body completes in the same step (R135). -/
def lengthStage (data : List Byte) (s : State) : State :=
  let (s, data) := decryptIfActive data s
  let lenf := bytes4OfList data
  let s := { s with lenf := lenf, pktLen := be32 lenf }
  if lengthInBounds s.lCfg s.pktLen then
    startRead s.pktLen (bodyStage []) { s with fst := .awaitingBody }
  else raise .decodeFrame (.protocolViolation .lengthOutOfBounds) s

/-- `Continue(data)` (R132): the stage `FST` names. In `DONE` and `FAILED`, where no read is ever
outstanding (R45), none of the three lines of R132 applies and nothing is done (log 13). -/
def continueFrame (data : List Byte) (s : State) : State :=
  match s.fst with
  | .awaitingLength => lengthStage data s
  | .awaitingBody => bodyStage data s
  | .awaitingMac => macStage data s
  | .done => s
  | .failed => s

/-- DECODE_FRAME (R131). Not accepted while a command is in progress: nothing changes (R40, R196). A
dead direction answers with the latched failure (R175), before the refusal is looked at (R168). -/
def execDecodeFrame (s : State) : Host.Outcome State Fault Refusal :=
  if s.cmdReady then
    if s.dead then .next (respond .decodeFrame (.fail s.err) s)
    else if cfgWellFormed s.bufCap s.cfg then
      .next (beginRead 4 { s with lCfg := s.cfg, cmd := .decodeFrame })
    else .refused .configNotWellFormed
  else .next s

end Sys2Proof.Machine
end

