-- ==== Sys2Proof/Machine/ExactReader.lean ====
section
/-! DEFINITION. The ExactReader (40_exact_reader.md): READ_EXACT, the transport events, and the
completion of a read. An operation that is not enabled changes nothing: a command is not accepted and
an event is not consumed (R40, R52; log 11). -/

namespace Sys2Proof.Machine

/-- `ReadDone(data)` (R107): a direct read answers with its bytes; a read of a frame goes on with the
assembler. -/
def readDone (data : List Byte) (s : State) : State :=
  match s.cmd with
  | .readExact => { respond s.command (.ok data) (clearRead s) with cmd := .none }
  | .decodeFrame => continueFrame data (clearRead s)
  | .none => continueFrame data (clearRead s)

/-- `T_BYTE b` taken (R104): collected and counted, and the read completes with the last byte. -/
def takeByte (b : Byte) (s : State) : State :=
  let s := { s with abuf := s.abuf ++ [b], rdK := s.rdK + 1, cur := s.cur + 1 }
  if s.rdK = s.rdN then readDone s.abuf s else s

/-- A failure of the transport taken by an outstanding read (R105, R106): `CUR` stays. -/
def takeFailure (f : Failure) (s : State) : State := raise s.command f (loseCipher s)

/-- READ_EXACT n (R101), in the order of R168: a dead direction, the capacity, the empty read. -/
def execReadExact (n : Word) (s : State) : Host.Outcome State Fault Refusal :=
  if s.cmdReady then
    if s.dead then .next (respond (.readExact n) (.fail s.err) s)
    else if n.toNat > s.bufCap then .refused .readExceedsBufCap
    else if n = 0 then .next (respond (.readExact n) (.ok []) s)
    else .next (beginRead n { s with cmd := .readExact })
  else .next s

/-- T_BYTE b (R104). -/
def execTByte (b : Byte) (s : State) : Host.Outcome State Fault Refusal :=
  .next (if s.tReady then takeByte b s else s)

/-- T_EOS (R105): the read ends as a short read, with the counts it had. -/
def execTEos (s : State) : Host.Outcome State Fault Refusal :=
  .next (if s.tReady then takeFailure (.shortRead s.rdN s.rdK) s else s)

/-- T_ERR k (R106). -/
def execTErr (k : BitVec 2) (s : State) : Host.Outcome State Fault Refusal :=
  .next (if s.tReady then takeFailure (.transportError k) s else s)

/-- The reserved event kind (R81): performed as T_ERR with kind 0, `IO`. -/
def execTErrReserved (s : State) : Host.Outcome State Fault Refusal :=
  .next (if s.tReady then takeFailure (.transportError 0) s else s)

end Sys2Proof.Machine
end

