-- ==== Sys2Proof/Machine/Frame.lean ====
section
/-! DEFINITION. FRAME (30_encoding.md R70, R88): the wire bytes of one frame on the transport channel. It is
no operation of the block (R90) and no step of its own: it is the `T_BYTE`s it expands to, one step each. -/

namespace Sys2Proof.Machine

/-- FRAME(payload, P, padding, mac) (R88): the `T_BYTE` of its first byte, with the `T_BYTE`s of the others
offered next. Nothing is taken while no read is outstanding (R52), and no bytes would be no event. -/
def execFrame (f : WireFrame) (s : State) : Host.Outcome State Fault Refusal :=
  if s.tReady then
    match s.frameBytes f with
    | [] => .next s
    | b :: bs => execTByte b (offerBytes bs s)
  else .next s

end Sys2Proof.Machine
end

