-- ==== Sys2Proof/Machine/SequenceCounter.lean ====
section
/-! DEFINITION. The SequenceCounter's one operation (41_sequence_counter.md). -/

namespace Sys2Proof.Machine

/-- SEQ_NEXT (R120) on its own: the counter advances. The value it returns goes to its caller; commit
(R145) is the only one and drops it. No word selects it (R83, log 10). -/
def execSeqNext (s : State) : Host.Outcome State Fault Refusal := .next (seqNext s).2

end Sys2Proof.Machine
end

