-- ==== Sys2Proof/Machine/Dispatch.lean ====
section
/-! DEFINITION. One arm per operation. -/

namespace Sys2Proof.Machine

def exec (i : Instr) (s : State) : Host.Outcome State Fault Refusal :=
  match i with
  -- commands (R101, R131)
  | .readExact n => Sys2Proof.Machine.execReadExact n s
  | .decodeFrame => Sys2Proof.Machine.execDecodeFrame s
  -- transport events (R104 to R106)
  | .tByte b => Sys2Proof.Machine.execTByte b s
  | .tEos => Sys2Proof.Machine.execTEos s
  | .tErr k => Sys2Proof.Machine.execTErr k s
  | .tErrReserved => Sys2Proof.Machine.execTErrReserved s
  -- internal (R120) and the wire format (R70, R88)
  | .seqNext => Sys2Proof.Machine.execSeqNext s
  | .frame f => Sys2Proof.Machine.execFrame f s

end Sys2Proof.Machine
end

