-- ==== Sys2Proof/Machine/Fetch.lean ====
section
/-! DEFINITION. Placing a word where the next step takes it: what `State.withFetchWord` stands on. It is
the outside's hand, no operation of the framer. -/

namespace Sys2Proof.Machine

/-- The command channel made ready: a command in progress is abandoned; a dead or an idle framer is left
as it is, since both accept commands (R40). -/
def readyForCommand (s : State) : State :=
  if s.cmdReady then s
  else { clearFrame (clearRead s) with cmd := .none, fst := .awaitingLength }

/-- The transport channel made ready: where no read is outstanding, a direct read of one byte is. -/
def readyForEvent (s : State) : State :=
  if s.tReady then s
  else { beginRead 1 (clearFrame s) with cmd := .readExact, fst := .awaitingLength, err := FailureRecord.clear }

/-- The transport channel made ready for a frame: where no read is outstanding, a frame is in progress
whose length read has collected nothing, under the configuration inputs. -/
def readyForFrame (s : State) : State :=
  if s.tReady then s
  else { beginRead 4 (clearFrame s) with
         cmd := .decodeFrame, fst := .awaitingLength, err := FailureRecord.clear, lCfg := s.cfg }

/-- A line ahead of everything offered. -/
def offerFirst (l : Line) (s : State) : State := { s with script := l :: s.script }

/-- The word of `k` bytes, first in line on its channel, and the channel ready. What the decoder refuses
is not offered. -/
def offerWord (k w : Nat) (s : State) : State :=
  if k = 0 then s
  else if k ≤ 4 then
    if natOfLE (bytesLE k w) < 2 ^ 10 then
      offerFirst (.event (BitVec.ofNat 10 (natOfLE (bytesLE k w)))) (readyForEvent s)
    else s
  else if k = 5 then
    if natOfLE (bytesLE k w) < 2 ^ 33 then
      offerFirst (.command (BitVec.ofNat 33 (natOfLE (bytesLE k w)))) (readyForCommand s)
    else s
  else match decodeWire (bytesLE k w) with
    | .ok f => offerFirst (.frame f) (readyForFrame s)
    | .error _ => s

end Sys2Proof.Machine
end

