-- ==== Sys2Proof/Machine/Step.lean ====
section
/-! DEFINITION. One step of the machine (00_scope.md R7): the first offered line that is a step now is
taken. -/

namespace Sys2Proof.Machine

/-- The three kinds of step (R7): reset, the acceptance of one command, the consumption of one event. -/
def runKind : StepKind → State → Host.Outcome State Fault Refusal
  | .reset, s => .next (resetStep s)
  | .command c, s => exec (decodeCommand c) s
  | .event t, s => exec (decodeEvent t) s

/-- One step. Where nothing that is offered can be taken there is none: the framer waits and nothing changes
(R7, R54, R103, R185; log 6). -/
def step (s : State) : Host.Outcome State Fault Refusal :=
  match takeLine s s.cfg s.script with
  | none => .next s
  | some t => runKind t.kind (s.atStep t)

/-- `s` with a table row's word offered first, and the channel it goes to ready for it, so that the next
step takes exactly it, of a FRAME its first byte (log 9). No word stands for SEQ_NEXT (R83): zero bits
offer nothing. -/
def State.withFetchWord (s : State) (nbits w : Nat) : State :=
  offerWord ((nbits + 7) / 8) w s

end Sys2Proof.Machine
end

