-- ==== Sys2Proof/Machine/BigStep.lean ====
section
/-! DEFINITION. The exact read and the frame decode as functions of the events the transport would offer
(40_exact_reader.md R108, 42_frame_assembler.md R148), written from those two rules and not from the
step rules, so that the two readings can be compared. -/

namespace Sys2Proof.Machine

/-- One transport event, by kind (R50). -/
inductive TEvent where
  | byte (b : Byte)
  | eos
  | err (k : BitVec 2)
deriving DecidableEq, Repr

/-- The leading Byte events, capped at `n`, and the events after them. -/
def leadingBytes : Nat → List TEvent → List Byte × List TEvent
  | 0, E => ([], E)
  | _ + 1, [] => ([], [])
  | n + 1, .byte b :: E => (b :: (leadingBytes n E).1, (leadingBytes n E).2)
  | _ + 1, .eos :: E => ([], .eos :: E)
  | _ + 1, .err k :: E => ([], .err k :: E)

/-- The result of an exact read (R108): all the bytes and the rest of the events; a failure and how
many bytes were consumed; or no result, the events having run out. -/
inductive ReadResult where
  | ok (data : List Byte) (rest : List TEvent)
  | fail (f : Failure) (consumed : Nat)
  | waits (consumed : Nat)
deriving DecidableEq, Repr

/-- `ReadExact(n, E)` (R108). -/
def readExactFn (n : Word) (E : List TEvent) : ReadResult :=
  let j := (leadingBytes n.toNat E).1.length
  if j = n.toNat then .ok (leadingBytes n.toNat E).1 (leadingBytes n.toNat E).2
  else match (leadingBytes n.toNat E).2 with
    | .eos :: _ => .fail (.shortRead n (BitVec.ofNat 32 j)) j
    | .err k :: _ => .fail (.transportError k) j
    | _ => .waits j

/-- The result of a frame decode (R148). -/
inductive FrameResult where
  | ok (payload : List Byte) (seq : Word) (cs : CipherState) (consumed : Nat) (rest : List TEvent)
  | fail (f : Failure) (consumed : Nat)
  | waits (consumed : Nat)
deriving DecidableEq, Repr

/-- `DecodeFrame` of R148, from the decrypted body on: `lenf` and `len` are the decrypted length field
and its value, `cs` the cipher state after the body, `E` the events after the body. -/
def finishFrameFn (c : Cfg) (seq : Word) (cs : CipherState) (lenf : Bytes4) (len : Word)
    (body : List Byte) (E : List TEvent) : FrameResult :=
  let p := body.headD 0
  if len = 0 then .fail (.protocolViolation .paddingExceedsPacket) 4
  else if p.toNat < 4 then .fail (.protocolViolation .paddingTooShort) (4 + len.toNat)
  else if 1 + p.toNat > len.toNat then .fail (.protocolViolation .paddingExceedsPacket) (4 + len.toNat)
  else if c.macActive = false then .ok (slice body 1 (len.toNat - p.toNat)) (seq + 1) cs (4 + len.toNat) E
  else match readExactFn c.macLength E with
    | .fail f k => .fail f (4 + len.toNat + k)
    | .waits k => .waits (4 + len.toNat + k)
    | .ok m E' =>
      if Config.macCompute seq lenf body ≠ m then .fail .integrityViolation (4 + len.toNat + c.macLength.toNat)
      else .ok (slice body 1 (len.toNat - p.toNat)) (seq + 1) cs (4 + len.toNat + c.macLength.toNat) E'

/-- `DecodeFrame(cfg, seq, cs, E)` (R148). -/
def decodeFrameFn (c : Cfg) (seq : Word) (cs : CipherState) (E : List TEvent) : FrameResult :=
  match readExactFn 4 E with
  | .fail f k => .fail f k
  | .waits k => .waits k
  | .ok l E1 =>
    let (cs1, plain) := if c.cipherActive then decrypt cs l else (cs, l)
    let lenf := bytes4OfList plain
    let len := be32 lenf
    if len < c.minFrameSize ∨ len > c.maxFrameSize then .fail (.protocolViolation .lengthOutOfBounds) 4
    else match readExactFn len E1 with
      | .fail f k => .fail f (4 + k)
      | .waits k => .waits (4 + k)
      | .ok b E2 =>
        let (cs2, body) := if c.cipherActive then decrypt cs1 b else (cs1, b)
        finishFrameFn c seq cs2 lenf len body E2

end Sys2Proof.Machine
end

