-- ==== Sys2Proof/Safety.lean ====
section
/-! DEFINITION. The words claims are stated in: the invariant of a resting state (10_state.md R45), what
a run shows (20_memory.md R65), the states an operation ends in, and a run over transport events. -/

namespace Sys2Proof.Machine

/-! ### The invariant -/

/-- Every frame register at its reset value. -/
def FrameClear (s : State) : Prop :=
  s.pktLen = 0 ∧ s.padLen = 0 ∧ s.lenf = { b0 := 0, b1 := 0, b2 := 0, b3 := 0 } ∧ s.body = []

/-- The invariants of every resting state (R45, by its letters), with what R20, R32 to R34 and R43 add
of the failure record and the buffers. Codes that are never held (R45 (g)) are no values of the types. -/
structure Inv (s : State) : Prop where
  /-- (a) -/
  collected : s.abuf.length = s.rdK.toNat
  /-- (b) -/
  outstanding : s.rdActive = true → 1 ≤ s.rdN ∧ s.rdK < s.rdN ∧ s.cmd ≠ .none
  /-- (c) -/
  noRead : s.rdActive = false → s.rdN = 0 ∧ s.rdK = 0 ∧ s.abuf = []
  /-- (d) -/
  commandWaits : s.cmd ≠ .none → s.rdActive = true
  /-- (e), with the frame registers, which a direct read never writes (R41) -/
  directRead : s.cmd = .readExact → s.fst = .awaitingLength ∧ FrameClear s ∧ s.rdN.toNat ≤ s.bufCap
  /-- (f), first part -/
  frameStage : s.cmd = .decodeFrame →
    s.fst = .awaitingLength ∨ s.fst = .awaitingBody ∨ s.fst = .awaitingMac
  /-- a frame runs under a well-formed configuration (R131) -/
  frameConfig : s.cmd = .decodeFrame → cfgWellFormed s.bufCap s.lCfg = true
  /-- (f), the length read -/
  lengthRead : s.cmd = .decodeFrame → s.fst = .awaitingLength → s.rdN = 4 ∧ FrameClear s
  /-- (f), the body read -/
  bodyRead : s.cmd = .decodeFrame → s.fst = .awaitingBody →
    s.rdN = s.pktLen ∧ s.pktLen = be32 s.lenf ∧ s.lCfg.minFrameSize ≤ s.pktLen
      ∧ s.pktLen ≤ s.lCfg.maxFrameSize ∧ 1 ≤ s.pktLen ∧ s.padLen = 0 ∧ s.body = []
  /-- (f), the MAC read -/
  macRead : s.cmd = .decodeFrame → s.fst = .awaitingMac →
    s.lCfg.macActive = true ∧ s.rdN = s.lCfg.macLength ∧ s.pktLen = be32 s.lenf
      ∧ s.pktLen ≤ s.lCfg.maxFrameSize ∧ s.body.length = s.pktLen.toNat
      ∧ s.body.head? = some s.padLen ∧ 4 ≤ s.padLen.toNat ∧ 1 + s.padLen.toNat ≤ s.pktLen.toNat
  /-- (g) -/
  notDone : s.fst ≠ .done
  /-- (h) -/
  failedIff : s.fst = .failed ↔ s.err.code ≠ .none
  /-- (h), what else holds then -/
  failedClear : s.fst = .failed → s.cmd = .none ∧ FrameClear s
  /-- (i) -/
  idle : s.cmd = .none → s.fst ≠ .failed → s.fst = .awaitingLength ∧ FrameClear s
  /-- the record's fields belong to its code (R33, R34, R163, R105) -/
  record : (s.err.code = .none → s.err = FailureRecord.clear)
    ∧ (s.err.code ≠ .transportError → s.err.kind = 0)
    ∧ (s.err.code = .protocolViolation ↔ s.err.reason ≠ .none)
    ∧ (s.err.code ≠ .shortRead → s.err.expected = 0 ∧ s.err.actual = 0)
    ∧ (s.err.code = .shortRead → s.err.actual < s.err.expected)

/-! ### What a run shows -/

/-- The observation (R65): the responses, the status outputs and the cursor. -/
structure Observation where
  responses : List Answer
  status    : StatusOutputs
  cur       : Nat
deriving DecidableEq, Repr

/-- What a state shows to the outside (R65): each response with its command, the status outputs, `CUR`. -/
def State.observe (s : State) : Observation :=
  { responses := s.responses, status := s.statusOutputs, cur := s.cur }

/-! ### Conditions on a state -/

/-- The framer is idle at a frame boundary: `CMD = NONE`, `FST = AWAITING_LENGTH`, no failure. -/
def State.Idle (s : State) : Prop := s.cmd = .none ∧ s.fst = .awaitingLength

/-- The next byte is the last of the outstanding read. -/
def State.AtLastByte (s : State) : Prop := s.tReady = true ∧ s.rdK + 1 = s.rdN

/-- The bytes of a completed read as the assembler sees them: decrypted where a cipher is active. -/
def State.plain (s : State) (data : List Byte) : List Byte :=
  if s.lCfg.cipherActive then (decrypt s.cs data).2 else data

/-- The cipher state after the assembler has seen the bytes of a completed read. -/
def State.csAfter (s : State) (data : List Byte) : CipherState :=
  if s.lCfg.cipherActive then (decrypt s.cs data).1 else s.cs

/-! ### The states an operation ends in -/

/-- The dead state (R170): the record latched and the answer to the command `c`, read and frame cleared,
command over, all else as in `s`. -/
def State.deadWith (s : State) (c : Command) (r : FailureRecord) : State :=
  { s with
    cmd := .none, fst := .failed, rdActive := false, rdN := 0, rdK := 0, abuf := [],
    pktLen := 0, padLen := 0, lenf := { b0 := 0, b1 := 0, b2 := 0, b3 := 0 }, body := [],
    err := r, responses := s.responses ++ [⟨c, .fail r⟩] }

/-- The idle state after a frame has committed (R145): the payload answered to DECODE_FRAME, `SEQ` one higher, read and
frame cleared, command over, all else as in `s`. -/
def State.committedWith (s : State) (payload : List Byte) : State :=
  { s with
    cmd := .none, fst := .awaitingLength, rdActive := false, rdN := 0, rdK := 0, abuf := [],
    pktLen := 0, padLen := 0, lenf := { b0 := 0, b1 := 0, b2 := 0, b3 := 0 }, body := [],
    seq := s.seq + 1, responses := s.responses ++ [⟨.decodeFrame, .ok payload⟩] }

/-- A read of `n > 0` bytes outstanding with nothing collected (R102), all else as in `s`. -/
def State.readingWith (s : State) (n : Word) : State :=
  { s with rdActive := true, rdN := n, rdK := 0, abuf := [] }

/-! ### Lines that are no step now -/

/-- The configuration inputs after some lines (R36, R87): those of the last CFG among them. -/
def inputsAfter (ls : List Line) (c : Cfg) : Cfg := ls.foldl (fun c l => lineInputs l c) c

/-- What of some lines, none of which is a step now, stays offered (R52, R196): all but the CFG lines. -/
def stillOffered (ls : List Line) : List Line := ls.filter lineStays

/-! ### Runs over transport events -/

/-- The operation an event is. -/
def eventInstr : TEvent → Instr
  | .byte b => .tByte b
  | .eos => .tEos
  | .err k => .tErr k

/-- The events taken one by one while `t_ready` holds: the state they end in and the events left with
the transport. -/
def offerEvents : List TEvent → State → State × List TEvent
  | [], s => (s, [])
  | e :: E, s =>
    if s.tReady then
      match exec (eventInstr e) s with
      | .next t => offerEvents E t
      | .fault _ => (s, e :: E)
      | .refused _ => (s, e :: E)
    else (s, e :: E)

/-- A map over the next state of an outcome. -/
def mapNext (g : State → State) : Host.Outcome State Fault Refusal → Host.Outcome State Fault Refusal
  | .next s => .next (g s)
  | .fault r => .fault r
  | .refused r => .refused r

/-- The command an operation issues (R90): none for the events, the internal operation and a frame. -/
def commandOf : Instr → Option Command
  | .readExact n => some (.readExact n)
  | .decodeFrame => some .decodeFrame
  | .tByte _ => none
  | .tEos => none
  | .tErr _ => none
  | .tErrReserved => none
  | .seqNext => none
  | .frame _ => none

/-- A state with its sampled configuration replaced. -/
def State.setLCfg (s : State) (c : Cfg) : State := { s with lCfg := c }

/-- A state with its cipher state, and the model's count of free values, forgotten. -/
def State.forgetCipher (s : State) : State := { s with cs := [], freeCount := 0 }

/-- Some bytes of the length of `x` decrypt to `x` in the framer's two calls: the property R151 asks of
`Encrypt` can be had at `x`. -/
def Encryptable (cs : CipherState) (x : List Byte) : Prop :=
  ∃ y : List Byte, y.length = x.length ∧ (decryptFrame cs y).2 = x

/-- A state with its configuration inputs replaced. -/
def State.setInputs (s : State) (c : Cfg) : State := { s with cfg := c }

/-- A state with `BLOCK_SIZE` forgotten in both of its configuration records. -/
def State.forgetBlockSize (s : State) : State :=
  { s with cfg := { s.cfg with blockSize := 0 }, lCfg := { s.lCfg with blockSize := 0 } }

end Sys2Proof.Machine
end

