-- ==== Sys2Proof/Certificates/Slice0/Obligations.lean ====
section
/-! DEFINITION. The statements about the model, one `Prop` each; OBLIGATIONS.json says of each which
rules of the spec it rests on. A free value (log 3, 4) is never constrained by one of them. -/

open Sys2Proof
open Sys2Proof.Machine

/-! ### Reset -/

/-- R20, R48: every register of the reset state at its reset value, and a command can be accepted.
`L_CFG` has none (R48) and is not mentioned. -/
def Obligations.ResetRegistersHoldTheirResetValues : Prop :=
  State.reset.cmd = .none ∧ State.reset.fst = .awaitingLength ∧ State.reset.rdActive = false
    ∧ State.reset.rdN = 0 ∧ State.reset.rdK = 0 ∧ State.reset.abuf = [] ∧ State.reset.seq = 0
    ∧ State.reset.pktLen = 0 ∧ State.reset.padLen = 0
    ∧ bytes4List State.reset.lenf = [0, 0, 0, 0] ∧ State.reset.body = []
    ∧ State.reset.err = { code := .none, kind := 0, reason := .none, expected := 0, actual := 0 }
    ∧ State.reset.cs = State.reset.csInit ∧ State.reset.cur = 0
    ∧ State.reset.cmdReady = true ∧ State.reset.tReady = false

/-- R190 to R192: the reset step is enabled in every state, whatever is in progress, also when the direction
is dead, and also behind lines that are no step now (log 6): a command or an event that cannot be taken stays
offered, and a CFG is no step and has driven the configuration inputs. It gives the reset values, answers
nothing, and leaves the configuration inputs, the transport and the instance's parameters. `L_CFG` is
unconstrained. -/
def Obligations.ResetStepGivesResetValuesFromEveryState : Prop :=
  ∀ (s : State) (pre rest : List Line), (∀ l ∈ pre, lineStep s l = none) →
    s.script = pre ++ .reset :: rest →
    ∃ t, step s = .next t ∧ t.cmd = .none ∧ t.fst = .awaitingLength ∧ t.rdActive = false
      ∧ t.rdN = 0 ∧ t.rdK = 0 ∧ t.abuf = [] ∧ t.seq = 0 ∧ t.pktLen = 0 ∧ t.padLen = 0
      ∧ bytes4List t.lenf = [0, 0, 0, 0] ∧ t.body = [] ∧ t.err = FailureRecord.clear
      ∧ t.cs = s.csInit ∧ t.cur = 0 ∧ t.responses = s.responses ∧ t.cfg = inputsAfter pre s.cfg
      ∧ t.script = stillOffered pre ++ rest ∧ t.bufCap = s.bufCap ∧ t.csInit = s.csInit

/-! ### Encodings -/

/-- Words written out from R80 to R82 and R87 and the bytes of the document's frame (S9), with the
operation each stands for. -/
def Obligations.WrittenWordsDecode : Prop :=
  decode (.command 0x000000003#33) = .ok (.readExact 3)
    ∧ decode (.command 0x100000000#33) = .ok .decodeFrame
    ∧ decode (.command 0x1FFFFFFFF#33) = .ok .decodeFrame
    ∧ decode (.event 0x0AA#10) = .ok (.tByte 0xAA)
    ∧ decode (.event 0x1FF#10) = .ok .tEos
    ∧ decode (.event 0x2FD#10) = .ok (.tErr 1)
    ∧ decode (.event 0x3A7#10) = .ok .tErrReserved
    ∧ decode (.wire [0x00, 0x00, 0x00, 0x09, 0x04, 0x70, 0x69, 0x6E, 0x67, 0, 0, 0, 0])
        = .ok (.frame { packetLength := 9, paddingLength := 4, payload := [0x70, 0x69, 0x6E, 0x67],
                        padding := [0, 0, 0, 0], mac := [] })

/-- R82, R83: a command word is DECODE_FRAME exactly when it matches under the mask, whatever its other
bits are, and otherwise READ_EXACT of its low 32 bits; every word is one of the two. -/
def Obligations.CommandWordsSelectByMatchAndMask : Prop :=
  ∀ c : BitVec 33,
    (c &&& 0x100000000#33 = 0x100000000#33 → decodeCommand c = .decodeFrame)
      ∧ (c &&& 0x100000000#33 = 0#33 → decodeCommand c = .readExact (c.setWidth 32))
      ∧ (c &&& 0x100000000#33 = 0x100000000#33 ∨ c &&& 0x100000000#33 = 0#33)

/-- R80, R81: an event word is selected by its match under the mask 0x300; the ignored bits change
nothing; every word is one of the four. -/
def Obligations.EventWordsSelectByMatchAndMask : Prop :=
  ∀ t : BitVec 10,
    (t &&& 0x300#10 = 0x000#10 → decodeEvent t = .tByte (t.setWidth 8))
      ∧ (t &&& 0x300#10 = 0x100#10 → decodeEvent t = .tEos)
      ∧ (t &&& 0x300#10 = 0x200#10 → decodeEvent t = .tErr (t.setWidth 2))
      ∧ (t &&& 0x300#10 = 0x300#10 → decodeEvent t = .tErrReserved)
      ∧ (t &&& 0x300#10 = 0x000#10 ∨ t &&& 0x300#10 = 0x100#10 ∨ t &&& 0x300#10 = 0x200#10
          ∨ t &&& 0x300#10 = 0x300#10)

/-- R72: `packet_length` is the first byte times 2^24 and so on, with no sign, scaling or bias, and
every one of the 2^32 values is the length of some four bytes, and of one only. -/
def Obligations.LengthFieldIsBigEndian : Prop :=
  (∀ b : Bytes4, (be32 b).toNat
      = b.b0.toNat * 2 ^ 24 + b.b1.toNat * 2 ^ 16 + b.b2.toNat * 2 ^ 8 + b.b3.toNat)
    ∧ ∀ v : Word, ∃ b : Bytes4, be32 b = v ∧ ∀ b' : Bytes4, be32 b' = v → b' = b

/-- R70, R71: the bytes that decode to a frame hold its fields at the offsets of R71, and encoding it gives
the bytes back. That the decoder answers only well-formed frames (`P ≥ 4`, `1 + P ≤ L`, R78) and takes all
the bytes after the body for the MAC, to which R71 gives `MAC_LENGTH` of them, is the model's reading
(log 19). -/
def Obligations.WireFieldsStandAtTheirOffsets : Prop :=
  ∀ (w : List Byte) (f : WireFrame), decodeWire w = .ok f →
    f.wf = true
      ∧ f.packetLength = be32 (bytes4OfList (slice w 0 4))
      ∧ w[4]? = some f.paddingLength
      ∧ f.payload = slice w 5 (4 + f.packetLength.toNat - f.paddingLength.toNat)
      ∧ f.padding = slice w (4 + f.packetLength.toNat - f.paddingLength.toNat) (4 + f.packetLength.toNat)
      ∧ f.mac = w.drop (4 + f.packetLength.toNat)
      ∧ encodeWire f = w

/-- Decoding what the encoder gives for a well-formed operation gives the operation back, at every
value of every operand field. SEQ_NEXT is the one operation with no encoding (R83). -/
def Obligations.DecodeOfEncodeIsTheOperation : Prop :=
  ∀ i : Instr, i.wf = true →
    (encode i = none ↔ i = .seqNext) ∧ ∀ c, encode i = some c → decode c = .ok i

/-- R84: the fields of a response stand at their bits in the 103-bit header; a success has every failure
field 0 and its length in `len`, and a failure has no data. -/
def Obligations.ResponseHeaderFieldsStandAtTheirBits : Prop :=
  (∀ r : FailureRecord,
      (responseHeader (.fail r)).extractLsb' 100 3 = errCodeBits r.code
        ∧ (responseHeader (.fail r)).extractLsb' 98 2 = r.kind
        ∧ (responseHeader (.fail r)).extractLsb' 96 2 = reasonBits r.reason
        ∧ (responseHeader (.fail r)).extractLsb' 64 32 = r.expected
        ∧ (responseHeader (.fail r)).extractLsb' 32 32 = r.actual
        ∧ (responseHeader (.fail r)).extractLsb' 0 32 = 0 ∧ responseData (.fail r) = [])
    ∧ ∀ d : List Byte, d.length < 2 ^ 32 →
      (responseHeader (.ok d)).extractLsb' 32 71 = 0
        ∧ ((responseHeader (.ok d)).extractLsb' 0 32).toNat = d.length ∧ responseData (.ok d) = d

/-- R21, R22, R32, R33, R85: the codes of the registers, and that the codes the spec says are never held
are the code of nothing. -/
def Obligations.RegisterCodesAreTheSpecs : Prop :=
  cmdCode .none = 0 ∧ cmdCode .readExact = 1 ∧ cmdCode .decodeFrame = 2
    ∧ fstCode .awaitingLength = 0 ∧ fstCode .awaitingBody = 1 ∧ fstCode .awaitingMac = 2
    ∧ fstCode .done = 3 ∧ fstCode .failed = 4
    ∧ errCodeBits .none = 0 ∧ errCodeBits .transportError = 1 ∧ errCodeBits .shortRead = 2
    ∧ errCodeBits .protocolViolation = 3 ∧ errCodeBits .integrityViolation = 4
    ∧ reasonBits .none = 0 ∧ reasonBits .lengthOutOfBounds = 1 ∧ reasonBits .paddingTooShort = 2
    ∧ reasonBits .paddingExceedsPacket = 3
    ∧ (∀ c, cmdCode c ≠ 3) ∧ (∀ f, fstCode f ≤ 4) ∧ (∀ e, errCodeBits e ≤ 4)

/-! ### The step -/

/-- R7, R12, R52, R87, R88, R91: the step takes the first offered line that is a step now (that order is the
model's choice, log 6). A command word that can be accepted is decoded and performed; so is an event word that
can be consumed. Of the lines before it, what is on a channel that is not ready stays offered, and a CFG, which
is no step, has driven the configuration inputs. A FRAME is no step either: the step is that of the `T_BYTE`s
it expands to then (log 8), and where it stands first that is exec of FRAME. Where no line is a step there
is none, and nothing changes. -/
def Obligations.StepRunsTheDecodedOperation : Prop :=
  ∀ (s : State) (pre rest : List Line), (∀ l ∈ pre, lineStep s l = none) →
    (∀ c i, s.script = pre ++ .command c :: rest → s.cmdReady = true → decode (.command c) = .ok i →
        step s = exec i { s with cfg := inputsAfter pre s.cfg, script := stillOffered pre ++ rest })
      ∧ (∀ t i, s.script = pre ++ .event t :: rest → s.tReady = true → decode (.event t) = .ok i →
        step s = exec i { s with cfg := inputsAfter pre s.cfg, script := stillOffered pre ++ rest })
      ∧ (∀ f, s.script = pre ++ .frame f :: rest → s.tReady = true →
        step s = step { s with script := pre ++ byteLines (s.frameBytes f) ++ rest }
          ∧ (pre = [] → step s = exec (.frame f) { s with script := rest }))
      ∧ (∀ c l, s.script = .config c :: rest → l ∈ rest → lineStep s l ≠ none →
        step s = step { s with cfg := c, script := rest })
      ∧ (s.script = pre → step s = .next s)

/-- R7 (D2): there are exactly three kinds of step. From every state a step that answers a state is one of
them, on the configuration inputs and the lines still offered that it finds: a reset that is offered; the
acceptance of one command that is offered; or the consumption of one event that is offered, by itself or as
the first byte of a FRAME, which moves the cursor by at most 1. Where no line is a step now the framer waits:
nothing has changed (that `step` answers the same state for it: log 6). -/
def Obligations.EveryStepIsOneOfTheThreeKinds : Prop :=
  ∀ s t : State, step s = .next t →
    ((∀ l ∈ s.script, lineStep s l = none) ∧ t = s)
      ∨ ∃ (c : Cfg) (ls : List Line),
        (.reset ∈ s.script ∧ t = resetStep { s with cfg := c, script := ls })
          ∨ (∃ w, .command w ∈ s.script ∧ s.cmdReady = true
              ∧ exec (decodeCommand w) { s with cfg := c, script := ls } = .next t ∧ t.cur = s.cur)
          ∨ ∃ e, (.event e ∈ s.script ∨ ∃ f b bs, .frame f ∈ s.script ∧ s.frameBytes f = b :: bs ∧ e = byteEvent b)
              ∧ s.tReady = true ∧ exec (decodeEvent e) { s with cfg := c, script := ls } = .next t
              ∧ s.cur ≤ t.cur ∧ t.cur ≤ s.cur + 1

/-- R103, R185: while a read is outstanding and the transport offers no event, nothing happens, however many
commands the host has waiting and whatever it drives the configuration inputs to: no timeout and no retry.
That the wait, which R103 says is no step, is answered as a state in which nothing has changed is the model's
form (log 6). (`Inv` rules out a read outstanding with no command in progress, which no run reaches.) -/
def Obligations.WaitingForTheTransportChangesNothing : Prop :=
  ∀ s : State, Inv s → s.rdActive = true →
    (∀ l ∈ s.script, (∃ c, l = .command c) ∨ ∃ c, l = .config c) → step s = .next s

/-! ### Commands -/

/-- R101: READ_EXACT n on an idle framer starts the read and changes nothing else. -/
def Obligations.ReadExactStartsTheRead : Prop :=
  ∀ (n : Word) (s : State), s.cmd = .none → s.fst ≠ .failed → n ≠ 0 → n.toNat ≤ s.bufCap →
    exec (.readExact n) s
      = .next { s with cmd := .readExact, rdActive := true, rdN := n, rdK := 0, abuf := [] }

/-- R101: READ_EXACT 0 on an idle framer succeeds at once with no bytes; no register changes and the
transport is not touched. -/
def Obligations.ReadExactOfNothingAnswersAtOnce : Prop :=
  ∀ s : State, s.cmd = .none → s.fst ≠ .failed →
    exec (.readExact 0) s = .next { s with responses := s.responses ++ [⟨.readExact 0, .ok []⟩] }

/-- R131: DECODE_FRAME on an idle framer samples the configuration inputs and starts the read of the four
length bytes, and changes nothing else. -/
def Obligations.DecodeFrameSamplesConfigAndStartsTheLengthRead : Prop :=
  ∀ s : State, s.cmd = .none → s.fst ≠ .failed → s.cfg.maxFrameSize.toNat ≤ s.bufCap →
    (s.cfg.macActive = true → s.cfg.macLength.toNat ≤ s.bufCap) →
    exec .decodeFrame s
      = .next { s with cmd := .decodeFrame, lCfg := s.cfg, rdActive := true, rdN := 4, rdK := 0, abuf := [] }

/-- R9, R43, U2, U3: on an idle framer the two commands are refused exactly where the spec refuses them:
a count above the capacity, and a configuration that is not well-formed. -/
def Obligations.CommandsAreRefusedExactlyBeyondCapacity : Prop :=
  ∀ (n : Word) (s : State), s.cmd = .none → s.fst ≠ .failed →
    (s.bufCap < n.toNat ↔ exec (.readExact n) s = .refused .readExceedsBufCap)
      ∧ ((s.bufCap < s.cfg.maxFrameSize.toNat
            ∨ s.cfg.macActive = true ∧ s.bufCap < s.cfg.macLength.toNat)
          ↔ exec .decodeFrame s = .refused .configNotWellFormed)

/-- R40, R52, R196, V11: what is not enabled changes nothing: a command while one is in progress, a
transport event while `t_ready` is false. -/
def Obligations.OperationsNotEnabledChangeNothing : Prop :=
  ∀ s : State,
    (s.cmd ≠ .none → (∀ n, exec (.readExact n) s = .next s) ∧ exec .decodeFrame s = .next s)
      ∧ (s.tReady = false →
          (∀ b, exec (.tByte b) s = .next s) ∧ exec .tEos s = .next s
            ∧ (∀ k, exec (.tErr k) s = .next s) ∧ exec .tErrReserved s = .next s
            ∧ ∀ f, exec (.frame f) s = .next s)

/-- R175: a dead direction answers every command, READ_EXACT 0 and a count beyond the capacity included,
with the latched failure, and nothing else changes. -/
def Obligations.DeadDirectionAnswersWithTheLatchedFailure : Prop :=
  ∀ (n : Word) (s : State), s.cmd = .none → s.fst = .failed →
    exec (.readExact n) s = .next { s with responses := s.responses ++ [⟨.readExact n, .fail s.err⟩] }
      ∧ exec .decodeFrame s = .next { s with responses := s.responses ++ [⟨.decodeFrame, .fail s.err⟩] }

/-! ### Transport events -/

/-- R104: T_BYTE is selected by `t[9:8] = 0` with every byte value; while `t_ready` it appends the byte,
counts it in `RD_K` without overflow, and completes the read exactly with its last byte. The byte is
counted in `CUR` in either case, before any check it triggers. (While `t_ready` is false it is not enabled:
OperationsNotEnabledChangeNothing.) -/
def Obligations.TByteIsCollectedAndCompletesTheRead : Prop :=
  ∀ (b : Byte) (s : State),
    (∀ d : Byte, decodeEvent (0#2 ++ d) = .tByte d)
      ∧ (s.tReady = true →
          s.rdK.toNat + 1 < 2 ^ 32
            ∧ (s.rdK + 1 ≠ s.rdN → exec (.tByte b) s
                = .next { s with abuf := s.abuf ++ [b], rdK := s.rdK + 1, cur := s.cur + 1 })
            ∧ (s.rdK + 1 = s.rdN → exec (.tByte b) s
                = .next (readDone (s.abuf ++ [b])
                    { s with abuf := s.abuf ++ [b], rdK := s.rdK + 1, cur := s.cur + 1 }))
            ∧ ∀ t, exec (.tByte b) s = .next t → t.cur = s.cur + 1)

/-- R107, R101: the last byte of a direct read answers with the bytes collected, raw, in order of
arrival, ends the command and clears the read; `SEQ`, `CS`, `L_CFG` and the frame registers stay. -/
def Obligations.LastByteOfADirectReadAnswersWithTheBytes : Prop :=
  ∀ (b : Byte) (s : State), s.AtLastByte → s.cmd = .readExact →
    exec (.tByte b) s
      = .next { s with cmd := .none, rdActive := false, rdN := 0, rdK := 0, abuf := [], cur := s.cur + 1,
                       responses := s.responses ++ [⟨.readExact s.rdN, .ok (s.abuf ++ [b])⟩] }

/-- R105, R162, R170: T_EOS, whatever its ignored bits, ends an outstanding read as a short read with the
counts it had, the second less than the first; the direction is dead. Only the cipher state is open, and
only where a body read under a cipher is interrupted midway (log 4). -/
def Obligations.TEosIsAShortRead : Prop :=
  (∀ d : BitVec 8, decodeEvent (1#2 ++ d) = .tEos)
    ∧ ∀ s : State, s.tReady = true →
      s.rdK < s.rdN
        ∧ ∃ cs' k, exec .tEos s
              = .next (State.deadWith { s with cs := cs', freeCount := k } s.command
                  { code := .shortRead, kind := 0, reason := .none, expected := s.rdN, actual := s.rdK })
            ∧ ((s.cmd ≠ .decodeFrame ∨ s.fst ≠ .awaitingBody ∨ s.lCfg.cipherActive = false ∨ s.rdK = 0)
                → cs' = s.cs ∧ k = s.freeCount)

/-- R106, R161, R170, R81: T_ERR k ends an outstanding read as a transport error of kind `k`, 3 recorded
as given, with no counts, and the reserved event kind does what T_ERR IO does. Only the cipher state is
open, as for T_EOS (log 4); where it is not, the kind changes nothing but the value recorded. -/
def Obligations.TErrIsATransportErrorOfItsKind : Prop :=
  (∀ (x : BitVec 6) (k : BitVec 2), decodeEvent (2#2 ++ (x ++ k)) = .tErr k)
    ∧ (∀ d : BitVec 8, decodeEvent (3#2 ++ d) = .tErrReserved)
    ∧ ∀ s : State, s.tReady = true →
      (∀ k, ∃ cs' n, exec (.tErr k) s
            = .next (State.deadWith { s with cs := cs', freeCount := n } s.command
                { code := .transportError, kind := k, reason := .none, expected := 0, actual := 0 })
          ∧ ((s.cmd ≠ .decodeFrame ∨ s.fst ≠ .awaitingBody ∨ s.lCfg.cipherActive = false ∨ s.rdK = 0)
              → cs' = s.cs ∧ n = s.freeCount))
        ∧ ∃ cs' n, exec .tErrReserved s
            = .next (State.deadWith { s with cs := cs', freeCount := n } s.command
                { code := .transportError, kind := 0, reason := .none, expected := 0, actual := 0 })
          ∧ exec .tErrReserved s = exec (.tErr 0) s

/-- R58: the bytes a failed read had collected are discarded: whatever they were, the state after an end
of stream or a transport error is the same. In a body read that is interrupted midway under a cipher this
is said of all but the cipher state, which those bytes may have reached (R136, U6, log 4). -/
def Obligations.AFailedReadDiscardsItsBytes : Prop :=
  ∀ (i : Instr) (s : State) (a : List Byte), i = .tEos ∨ (∃ k, i = .tErr k) ∨ i = .tErrReserved →
    s.tReady = true →
      mapNext State.forgetCipher (exec i { s with abuf := a }) = mapNext State.forgetCipher (exec i s)
        ∧ ((s.cmd ≠ .decodeFrame ∨ s.fst ≠ .awaitingBody ∨ s.lCfg.cipherActive = false ∨ s.rdK = 0)
          → exec i { s with abuf := a } = exec i s)

/-- What a transport event leaves (the frame of T_BYTE, T_EOS, T_ERR and the reserved kind, in every
stage): the sampled configuration, the configuration inputs, what is offered, the instance's parameters;
the failure record unless the direction dies; the cipher state where no cipher is active or the read is a
direct one; and the earlier responses. -/
def Obligations.TransportEventsLeaveTheRest : Prop :=
  ∀ (i : Instr) (s t : State), (∃ b, i = .tByte b) ∨ i = .tEos ∨ (∃ k, i = .tErr k) ∨ i = .tErrReserved →
    exec i s = .next t →
      t.lCfg = s.lCfg ∧ t.cfg = s.cfg ∧ t.script = s.script ∧ t.bufCap = s.bufCap ∧ t.csInit = s.csInit
        ∧ (t.fst ≠ .failed → t.err = s.err)
        ∧ (s.lCfg.cipherActive = false ∨ s.cmd = .readExact → t.cs = s.cs)
        ∧ ∃ r, t.responses = s.responses ++ r

/-! ### The stages of a frame -/

/-- R134: a length outside its bounds, both inclusive and unsigned, ends the direction with the fourth
length byte: exactly those four bytes are consumed, and whatever the transport offers next stays
unconsumed. Under a cipher it is the decrypted length that is checked. A length inside its bounds, either
bound itself included, is not rejected: the body read of that many bytes starts, to which what is offered
next goes, and it fits the buffer where the configuration is well-formed. A length of 0 completes that
read at once and fails as padding that exceeds the packet (R135, R138); that reason is the spec's own
decision D13. -/
def Obligations.LengthOutOfBoundsStopsBeforeTheBody : Prop :=
  ∀ (b0 b1 b2 b3 : Byte) (E : List TEvent) (s : State),
    s.cmd = .decodeFrame → s.fst = .awaitingLength → s.rdActive = true → s.rdN = 4 → s.rdK = 0 → s.abuf = [] →
    let lenf := bytes4OfList (s.plain [b0, b1, b2, b3])
    let len := (be32 lenf).toNat
    let u := { s with cs := s.csAfter [b0, b1, b2, b3], cur := s.cur + 4 }
    (len < s.lCfg.minFrameSize.toNat ∨ s.lCfg.maxFrameSize.toNat < len →
      offerEvents (.byte b0 :: .byte b1 :: .byte b2 :: .byte b3 :: E) s
        = (State.deadWith u .decodeFrame
            { code := .protocolViolation, kind := 0, reason := .lengthOutOfBounds, expected := 0, actual := 0 },
            E))
      ∧ (¬ (len < s.lCfg.minFrameSize.toNat ∨ s.lCfg.maxFrameSize.toNat < len) →
        (len ≠ 0 → offerEvents (.byte b0 :: .byte b1 :: .byte b2 :: .byte b3 :: E) s
            = offerEvents E (State.readingWith { u with fst := .awaitingBody, lenf := lenf, pktLen := be32 lenf }
                (be32 lenf)))
          ∧ (len = 0 → offerEvents (.byte b0 :: .byte b1 :: .byte b2 :: .byte b3 :: E) s
            = (State.deadWith { u with cs := u.csAfter [] } .decodeFrame
                { code := .protocolViolation, kind := 0, reason := .paddingExceedsPacket, expected := 0,
                  actual := 0 }, E))
          ∧ (cfgWellFormed s.bufCap s.lCfg = true → len ≤ s.bufCap))

/-- R133: the fourth length byte decrypts the four bytes where a cipher is active, keeps them and their
value, and checks the bounds: inside them the body read of exactly that many bytes starts, which a length
of 0 completes in the same step; outside them the direction ends. With no cipher `CS` is not touched. -/
def Obligations.LengthStageStartsTheBodyReadOrFails : Prop :=
  ∀ (b : Byte) (s : State), s.AtLastByte → s.cmd = .decodeFrame → s.fst = .awaitingLength →
    let lenf := bytes4OfList (s.plain (s.abuf ++ [b]))
    let u := { s with cs := s.csAfter (s.abuf ++ [b]), cur := s.cur + 1 }
    (s.lCfg.minFrameSize.toNat ≤ (be32 lenf).toNat → (be32 lenf).toNat ≤ s.lCfg.maxFrameSize.toNat →
        be32 lenf ≠ 0 → exec (.tByte b) s
          = .next (State.readingWith { u with fst := .awaitingBody, lenf := lenf, pktLen := be32 lenf }
              (be32 lenf)))
      ∧ (s.lCfg.minFrameSize.toNat ≤ (be32 lenf).toNat → (be32 lenf).toNat ≤ s.lCfg.maxFrameSize.toNat →
        be32 lenf = 0 → exec (.tByte b) s
          = .next (bodyStage [] (clearRead { u with fst := .awaitingBody, lenf := lenf, pktLen := 0 })))
      ∧ ((be32 lenf).toNat < s.lCfg.minFrameSize.toNat ∨ s.lCfg.maxFrameSize.toNat < (be32 lenf).toNat →
        exec (.tByte b) s = .next (State.deadWith u .decodeFrame
          { code := .protocolViolation, kind := 0, reason := .lengthOutOfBounds, expected := 0, actual := 0 }))
      ∧ (s.lCfg.cipherActive = false → s.csAfter (s.abuf ++ [b]) = s.cs ∧ s.plain (s.abuf ++ [b]) = s.abuf ++ [b])

/-- R135, R138 (its reason is a choice of the spec, D13): a length of 0, which only a minimum of 0 lets
through, completes its empty body read in the step of the fourth length byte and fails there as padding
that exceeds the packet; under a cipher the empty body is decrypted too. -/
def Obligations.ALengthOfZeroFailsInTheSameStep : Prop :=
  ∀ (b : Byte) (s : State), s.AtLastByte → s.cmd = .decodeFrame → s.fst = .awaitingLength →
    let u := { s with cs := s.csAfter (s.abuf ++ [b]), cur := s.cur + 1 }
    be32 (bytes4OfList (s.plain (s.abuf ++ [b]))) = 0 → s.lCfg.minFrameSize = 0 →
      exec (.tByte b) s
        = .next (State.deadWith { u with cs := u.csAfter [] } .decodeFrame
            { code := .protocolViolation, kind := 0, reason := .paddingExceedsPacket, expected := 0,
              actual := 0 })

/-- R138, R139, R163: the last body byte ends the direction where the padding is wrong: first an empty
body, then `padding_length < 4`, then `1 + padding_length > packet_length`, the sum taken without wrap.
Nothing of the MAC is read. -/
def Obligations.WrongPaddingStopsBeforeTheMac : Prop :=
  ∀ (b : Byte) (s : State), s.AtLastByte → s.cmd = .decodeFrame → s.fst = .awaitingBody →
    let p := (s.plain (s.abuf ++ [b])).headD 0
    let u := { s with cs := s.csAfter (s.abuf ++ [b]), cur := s.cur + 1 }
    (s.pktLen = 0 → exec (.tByte b) s = .next (State.deadWith u .decodeFrame
        { code := .protocolViolation, kind := 0, reason := .paddingExceedsPacket, expected := 0, actual := 0 }))
      ∧ (s.pktLen ≠ 0 → p.toNat < 4 → exec (.tByte b) s = .next (State.deadWith u .decodeFrame
        { code := .protocolViolation, kind := 0, reason := .paddingTooShort, expected := 0, actual := 0 }))
      ∧ (s.pktLen ≠ 0 → 4 ≤ p.toNat → s.pktLen.toNat < 1 + p.toNat → exec (.tByte b) s
        = .next (State.deadWith u .decodeFrame
          { code := .protocolViolation, kind := 0, reason := .paddingExceedsPacket, expected := 0, actual := 0 }))

/-- R137, R141, R143: the last byte of a body with good padding commits where no MAC is active; starts a
MAC read of `MAC_LENGTH` bytes, keeping body and padding length, where one is; and where `MAC_LENGTH` is
0 the empty MAC is compared in the same step. -/
def Obligations.GoodBodyCommitsOrStartsTheMacRead : Prop :=
  ∀ (b : Byte) (s : State), s.AtLastByte → s.cmd = .decodeFrame → s.fst = .awaitingBody →
    let body := s.plain (s.abuf ++ [b])
    let p := body.headD 0
    let u := { s with cs := s.csAfter (s.abuf ++ [b]), cur := s.cur + 1 }
    4 ≤ p.toNat → 1 + p.toNat ≤ s.pktLen.toNat →
    (s.lCfg.macActive = false → exec (.tByte b) s
        = .next (u.committedWith (slice body 1 (s.pktLen.toNat - p.toNat))))
      ∧ (s.lCfg.macActive = true → s.lCfg.macLength ≠ 0 → exec (.tByte b) s
        = .next (State.readingWith { u with fst := .awaitingMac, body := body, padLen := p }
            s.lCfg.macLength))
      ∧ (s.lCfg.macActive = true → s.lCfg.macLength = 0 → exec (.tByte b) s
        = .next (if Config.macCompute s.seq s.lenf body = []
            then u.committedWith (slice body 1 (s.pktLen.toNat - p.toNat))
            else u.deadWith .decodeFrame
              { code := .integrityViolation, kind := 0, reason := .none, expected := 0, actual := 0 }))

/-- R142, R143, R164: the last MAC byte compares the MAC of the current sequence number, the decrypted
length field and the decrypted body with the bytes received, which are not decrypted: equal commits,
different ends the direction with `SEQ` as it was. -/
def Obligations.LastMacByteCommitsOrIsAnIntegrityViolation : Prop :=
  ∀ (b : Byte) (s : State), s.AtLastByte → s.cmd = .decodeFrame → s.fst = .awaitingMac →
    exec (.tByte b) s
      = .next (if Config.macCompute s.seq s.lenf s.body = s.abuf ++ [b]
          then State.committedWith { s with cur := s.cur + 1 }
            (slice s.body 1 (s.pktLen.toNat - s.padLen.toNat))
          else State.deadWith { s with cur := s.cur + 1 } .decodeFrame
            { code := .integrityViolation, kind := 0, reason := .none, expected := 0, actual := 0 })

/-- R145: commit answers with the bytes between the padding-length byte and the padding, advances the
counter, clears the frame, passes through `DONE` and is idle at the frame boundary: a command is accepted,
no event is consumed, and `L_CFG`, `CS` and `CUR` are kept. `committedWith` says the rest. -/
def Obligations.CommitAnswersThePayloadAndIsIdle : Prop :=
  ∀ s : State, s.rdActive = false → s.rdN = 0 → s.rdK = 0 → s.abuf = [] →
    commit s = s.committedWith (slice s.body 1 (s.pktLen.toNat - s.padLen.toNat))
      ∧ (commit s).cmdReady = true ∧ (commit s).tReady = false ∧ (commit s).Idle
      ∧ (commit s).lCfg = s.lCfg ∧ (commit s).cs = s.cs ∧ (commit s).cur = s.cur

/-! ### The sequence counter -/

/-- R120: SEQ_NEXT returns the current value and increments modulo 2^32, wrapping to 0 as no error; no
word selects it; and in a step it happens only inside commit, once per committed frame: `SEQ` changes
otherwise by reset alone. That `exec` performs it on its own, outside commit, is the model's choice
(log 10). -/
def Obligations.SeqNextReturnsThenIncrementsOnlyInCommit : Prop :=
  (∀ s : State, (seqNext s).1 = s.seq ∧ exec .seqNext s = .next { s with seq := s.seq + 1 }
      ∧ (s.seq + 1).toNat = (s.seq.toNat + 1) % 2 ^ 32)
    ∧ encode .seqNext = none ∧ (∀ c, decode c ≠ .ok .seqNext)
    ∧ ∀ s t : State, Inv s → step s = .next t →
      t.seq = s.seq
        ∨ (t.seq = 0 ∧ ∃ u, takeLine s s.cfg s.script = some u ∧ u.kind = .reset)
        ∨ (t.seq = s.seq + 1 ∧ s.cmd = .decodeFrame ∧ t.Idle ∧ ∃ p, t.responses = s.responses ++ [⟨.decodeFrame, .ok p⟩])

/-! ### Failures -/

/-- R171: failure entry leaves `SEQ`, `CUR`, `L_CFG` and `CS` as they were; and so does the whole step,
whichever transport event or byte raised the failure, but for the byte it counts, the `Decrypt` calls of
the byte that completed a read, and a body read under a cipher that an end of stream or an error
interrupts midway, which leaves `CS` unspecified. That one which has collected nothing leaves `CS` as it was
is the model's reading (log 4). -/
def Obligations.FailureEntryLeavesCounterCursorAndConfig : Prop :=
  (∀ (c : Command) (f : Failure) (s : State), (raise c f s).seq = s.seq ∧ (raise c f s).cur = s.cur
      ∧ (raise c f s).lCfg = s.lCfg ∧ (raise c f s).cs = s.cs)
    ∧ ∀ (i : Instr) (s t : State), (∃ b, i = .tByte b) ∨ i = .tEos ∨ (∃ k, i = .tErr k) ∨ i = .tErrReserved →
    s.tReady = true → exec i s = .next t → s.fst ≠ .failed → t.fst = .failed →
      t.seq = s.seq ∧ t.lCfg = s.lCfg
        ∧ ((∃ b, i = .tByte b) → t.cur = s.cur + 1)
        ∧ ((∀ b, i ≠ .tByte b) → t.cur = s.cur)
        ∧ (s.lCfg.cipherActive = false → t.cs = s.cs)
        ∧ ((∀ b, i ≠ .tByte b) → s.cmd ≠ .decodeFrame ∨ s.fst ≠ .awaitingBody ∨ s.rdK = 0 → t.cs = s.cs)

/-- R174: a dead direction stays dead, with its failure record, under every operation and every step,
until a reset is taken, and the reset restarts the counter at 0. -/
def Obligations.NothingButResetLeavesFailed : Prop :=
  ∀ s : State, Inv s → s.fst = .failed →
    (∀ i t, exec i s = .next t → t.fst = .failed ∧ t.err = s.err)
      ∧ ∀ t, step s = .next t →
        (t.fst = .failed ∧ t.err = s.err ∧ t.cur = s.cur ∧ t.seq = s.seq)
          ∨ (t.fst = .awaitingLength ∧ t.seq = 0
              ∧ ∃ u, takeLine s s.cfg s.script = some u ∧ u.kind = .reset)

/-- R61, R65: every accepted command produces exactly one response, which goes out with that command, in the
operation that ends it, and none before: a command in progress that stays in progress answers nothing; one
that ends answers once; a command accepted on an idle framer either starts with no answer or ends at once
with one. -/
def Obligations.EveryCommandGetsExactlyOneResponse : Prop :=
  ∀ (i : Instr) (s t : State), Inv s → exec i s = .next t →
    (s.cmd ≠ .none → t.cmd ≠ .none → t.responses = s.responses ∧ t.command = s.command)
      ∧ (s.cmd ≠ .none → t.cmd = .none → ∃ r, t.responses = s.responses ++ [⟨s.command, r⟩])
      ∧ (s.cmd = .none → t.cmd ≠ .none → t.responses = s.responses ∧ commandOf i = some t.command)
      ∧ (s.cmd = .none → t.cmd = .none → ∀ c, commandOf i = some c →
          ∃ r, t.responses = s.responses ++ [⟨c, r⟩])

/-! ### What the host can read -/

/-- R39, R40: each status output is the code of its register, and the four status signals are the functions
of the registers that R40 gives. -/
def Obligations.StatusOutputsAreTheReadableRegisters : Prop :=
  ∀ s : State,
    s.statusOutputs.cmd = cmdCode s.cmd ∧ s.statusOutputs.fst = fstCode s.fst ∧ s.statusOutputs.seq = s.seq
      ∧ s.statusOutputs.code = errCodeBits s.err.code ∧ s.statusOutputs.kind = s.err.kind
      ∧ s.statusOutputs.reason = reasonBits s.err.reason ∧ s.statusOutputs.expected = s.err.expected
      ∧ s.statusOutputs.actual = s.err.actual
      ∧ (s.busy = true ↔ s.cmd ≠ .none) ∧ (s.dead = true ↔ s.fst = .failed)
      ∧ (s.cmdReady = true ↔ s.cmd = .none) ∧ (s.tReady = true ↔ s.rdActive = true ∧ s.rdK < s.rdN)

/-- R39, R65: two states show the same status outputs exactly when they agree in the eight readable
registers, and the same observation exactly when they also agree in the responses and in `CUR`; so states
that differ only in the registers of an unfinished read or frame, in `L_CFG` and in `CS` show the same, the
signals `BUSY`, `DEAD` and `cmd_ready` included. -/
def Obligations.HiddenRegistersShowInNoOutput : Prop :=
  (∀ s t : State, s.statusOutputs = t.statusOutputs
      ↔ s.cmd = t.cmd ∧ s.fst = t.fst ∧ s.seq = t.seq ∧ s.err = t.err)
    ∧ (∀ s t : State, s.observe = t.observe
      ↔ s.responses = t.responses ∧ s.cur = t.cur ∧ s.cmd = t.cmd ∧ s.fst = t.fst ∧ s.seq = t.seq
        ∧ s.err = t.err)
    ∧ ∀ (s : State) (n k len : Word) (a b : List Byte) (p : Byte) (l : Bytes4) (c : Cfg) (cs : CipherState),
      let t := { s with rdN := n, rdK := k, abuf := a, pktLen := len, padLen := p, lenf := l, body := b,
                        lCfg := c, cs := cs }
      t.statusOutputs = s.statusOutputs ∧ t.busy = s.busy ∧ t.dead = s.dead ∧ t.cmdReady = s.cmdReady
        ∧ t.observe = s.observe

/-! ### The cursor -/

/-- R37, R51: a byte that is consumed moves the cursor by 1, also the one byte that a FRAME takes; commands,
ends of stream, errors and SEQ_NEXT do not move it; and no operation moves it back or by more than 1. -/
def Obligations.CursorMovesOnlyWithConsumedBytes : Prop :=
  ∀ (i : Instr) (s t : State), exec i s = .next t →
    (s.cur ≤ t.cur ∧ t.cur ≤ s.cur + 1)
      ∧ ((∃ b, i = .tByte b) ∨ (∃ f, i = .frame f) → s.tReady = true → t.cur = s.cur + 1)
      ∧ ((∀ b, i ≠ .tByte b) → (∀ f, i ≠ .frame f) → t.cur = s.cur)

/-- R88, R52, R59, R198: a FRAME is the `T_BYTE` of its first byte, with the `T_BYTE`s of its others offered
next, ahead of what was offered before, and it always answers a next state. Run step by step, of all its bytes
each is consumed once or stays with the transport, in order, and the cursor counts the consumed ones, a step
for each; what remains is exactly what the framer did not need: if anything stays, `t_ready` is false. The
rest of what is outside the framer is unchanged. That the expansion is made when the first byte is taken is
the model's choice (log 8). -/
def Obligations.FrameBytesAreConsumedOnceOrKept : Prop :=
  ∀ (f : WireFrame) (s : State), s.tReady = true →
    (∃ b bs t, s.frameBytes f = b :: bs
        ∧ exec (.frame f) s = exec (.tByte b) { s with script := byteLines bs ++ s.script }
        ∧ exec (.frame f) s = .next t ∧ t.cur = s.cur + 1 ∧ t.script = byteLines bs ++ s.script)
      ∧ ∀ rest, ∃ k t, 1 ≤ k ∧ k ≤ (s.frameBytes f).length
        ∧ Host.Core.run Sys2Proof.core k { s with script := .frame f :: rest } = .next t
        ∧ t.cur = s.cur + k ∧ t.script = byteLines ((s.frameBytes f).drop k) ++ rest
        ∧ (k < (s.frameBytes f).length → t.tReady = false)
        ∧ t.cfg = s.cfg ∧ t.lCfg = s.lCfg ∧ t.bufCap = s.bufCap ∧ t.csInit = s.csInit

/-! ### Invariants -/

/-- R45: the reset state meets the invariants. -/
def Obligations.ResetStateMeetsTheInvariants : Prop := Inv State.reset

/-- R45: every step keeps the invariants, from every state that meets them, whatever is offered. -/
def Obligations.EveryStepKeepsTheInvariants : Prop :=
  ∀ s t : State, Inv s → step s = .next t → Inv t

/-- R45 (d): `cmd_ready` and `t_ready` are never both true; unless the direction is dead exactly one of
them is, and a dead direction has `cmd_ready` and not `t_ready`. -/
def Obligations.ReadySignalsAreExclusive : Prop :=
  ∀ s : State, Inv s →
    (s.cmdReady && s.tReady) = false
      ∧ (s.fst ≠ .failed → (s.cmdReady || s.tReady) = true)
      ∧ (s.fst = .failed → s.cmdReady = true ∧ s.tReady = false)

/-- R20, R26, R31, R43: both buffers stay within `BUF_CAP`, provided it holds a length field (log 7), and
only in the MAC stage is `BODY` not empty. -/
def Obligations.BuffersStayWithinTheCapacity : Prop :=
  ∀ s : State, Inv s → 4 ≤ s.bufCap →
    s.abuf.length ≤ s.bufCap ∧ s.body.length ≤ s.bufCap ∧ (s.fst ≠ .awaitingMac → s.body = [])

/-! ### What the host's inputs can reach -/

/-- R36, R64, R198: while a command is in progress the configuration inputs reach nothing: with other
inputs every operation ends the same way, but for the inputs themselves. -/
def Obligations.ConfigInputsDoNotReachACommandInProgress : Prop :=
  ∀ (i : Instr) (s : State) (c : Cfg), s.cmd ≠ .none →
    exec i (s.setInputs c) = mapNext (fun t => t.setInputs c) (exec i s)

/-- R36, U8: outside a frame decode `L_CFG` reaches nothing: with another one every step ends the same way,
but for `L_CFG` itself, and the step that accepts a DECODE_FRAME, which writes it with the configuration
inputs as they are then, ends in the very same state. -/
def Obligations.LCfgIsWrittenBeforeEveryUse : Prop :=
  ∀ (s : State) (c d : Cfg), Inv s → s.cmd ≠ .decodeFrame →
    mapNext (fun t => t.setLCfg d) (step (s.setLCfg c)) = mapNext (fun t => t.setLCfg d) (step s)
      ∧ ∀ t, step s = .next t → t.cmd = .decodeFrame → step (s.setLCfg c) = .next t ∧ t.lCfg = t.cfg

/-- R56: `BLOCK_SIZE` is read by no rule: two states that differ only in it step to states that differ
only in it, so a frame's block alignment is not checked. -/
def Obligations.BlockSizeIsReadByNoRule : Prop :=
  ∀ s s' : State, s.forgetBlockSize = s'.forgetBlockSize →
    mapNext State.forgetBlockSize (step s) = mapNext State.forgetBlockSize (step s')

/-! ### Whole commands -/

/-- R108, R109, R100: READ_EXACT n, run over any events one by one, does what the function of R108 says:
the bytes, raw and whole, and the events after them left with the transport; or the failure, with the
bytes before it consumed; or, the events having run out, a wait that has answered nothing. -/
def Obligations.ReadExactRunAgreesWithItsFunction : Prop :=
  ∀ (n : Word) (E : List TEvent) (s : State), Inv s → s.Idle → n ≠ 0 → n.toNat ≤ s.bufCap →
    ∃ t, exec (.readExact n) s = .next t ∧
      match readExactFn n E with
      | .ok data rest =>
        data.length = n.toNat ∧ offerEvents E t
          = ({ s with cur := s.cur + n.toNat, responses := s.responses ++ [⟨.readExact n, .ok data⟩] }, rest)
      | .fail f k =>
        ∃ rest, offerEvents E t = (State.deadWith { s with cur := s.cur + k } (.readExact n) (failureRecord f), rest)
      | .waits k =>
        ∃ u, offerEvents E t = (u, []) ∧ u.cmd = .readExact ∧ u.tReady = true
          ∧ u.responses = s.responses ∧ u.cur = s.cur + k

/-- R148, R149: DECODE_FRAME, run over any events one by one, does what the function of R148 says:
payload, counter, cipher state, bytes consumed and events left; or the failure, its record answered and
latched, `SEQ` unchanged, nothing more consumed; or a wait that has answered nothing. -/
def Obligations.DecodeFrameRunAgreesWithItsFunction : Prop :=
  ∀ (E : List TEvent) (s : State), Inv s → s.Idle → cfgWellFormed s.bufCap s.cfg = true →
    ∃ t, exec .decodeFrame s = .next t ∧
      match decodeFrameFn s.cfg s.seq s.cs E with
      | .ok payload seq cs k rest =>
        offerEvents E t
          = ({ s with lCfg := s.cfg, cs := cs, seq := seq, cur := s.cur + k,
                      responses := s.responses ++ [⟨.decodeFrame, .ok payload⟩] }, rest)
      | .fail f k =>
        ∃ u rest, offerEvents E t = (u, rest) ∧ u.cmd = .none ∧ u.fst = .failed ∧ u.err = failureRecord f
          ∧ u.responses = s.responses ++ [⟨.decodeFrame, .fail (failureRecord f)⟩] ∧ u.seq = s.seq ∧ u.cur = s.cur + k
          ∧ u.tReady = false
      | .waits k =>
        ∃ u, offerEvents E t = (u, []) ∧ u.cmd = .decodeFrame ∧ u.tReady = true
          ∧ u.responses = s.responses ∧ u.seq = s.seq ∧ u.cur = s.cur + k

/-! ### The reference encoder -/

/-- R151: the sender's `Encrypt` preserves length; wherever some bytes decrypt to `x` in the framer's two
calls, what it makes of `x` does; and if a function inverts the two calls at every sequence of a length,
it is that function there. (Where several sequences decrypt to `x`, or none, what it sends is the model's
choice: log 21.) -/
def Obligations.EncryptInvertsTheTwoDecryptCalls : Prop :=
  (∀ (cs : CipherState) (x : List Byte), (encrypt cs x).length = x.length
      ∧ (Encryptable cs x → (decryptFrame cs (encrypt cs x)).2 = x))
    ∧ ∀ (cs : CipherState) (n : Nat) (enc : List Byte → List Byte),
      (∀ x, x.length = n → (enc x).length = n ∧ (decryptFrame cs (enc x)).2 = x) →
        ∀ x, x.length = n → encrypt cs x = enc x

/-- R151, R88: the reference encoder refuses exactly what it requires not to hold; otherwise its bytes are
those of FRAME with the operands it gives, a well-formed frame with the payload, the padding length, the
padding and the MAC of `seq`, the plain length field and the plain body, none where no MAC is active; with
no cipher they are those fields in wire order (R70). And every well-formed FRAME whose MAC operand is the
computed one stands for the encoder's bytes. -/
def Obligations.FrameStandsForTheReferenceEncoding : Prop :=
  ∀ (c : Cfg) (seq : Word) (cs : CipherState),
    (∀ (payload : List Byte) (p : Byte) (padding : List Byte),
      let f := referenceFrame c seq payload p padding
      (¬ (4 ≤ p.toNat ∧ padding.length = p.toNat ∧ 1 + payload.length + p.toNat < 2 ^ 32) →
          encodeFrame c seq cs payload p padding = none)
        ∧ (4 ≤ p.toNat → padding.length = p.toNat → 1 + payload.length + p.toNat < 2 ^ 32 →
          encodeFrame c seq cs payload p padding = some (frameWire c cs f)
            ∧ f.wf = true ∧ f.packetLength.toNat = 1 + payload.length + p.toNat
            ∧ f.payload = payload ∧ f.paddingLength = p ∧ f.padding = padding
            ∧ (c.macActive = true →
                f.mac = Config.macCompute seq (be32bytes f.packetLength) (p :: (payload ++ padding)))
            ∧ (c.macActive = false → f.mac = [])
            ∧ (c.cipherActive = false → frameWire c cs f = encodeWire f)))
      ∧ ∀ f : WireFrame, f.wf = true → f.mac = senderMac c seq (be32bytes f.packetLength) (frameBody f) →
        encodeFrame c seq cs f.payload f.paddingLength f.padding = some (frameWire c cs f)

/-- R77, R79, R145, R149, R151: DECODE_FRAME and then the wire bytes of any well-formed frame whose
length is within the bounds and whose MAC field has the configured length, whatever its payload, padding
and alignment: the frame is consumed to its last byte and no further, and it commits with its payload
exactly when its MAC is the one computed, and otherwise is an integrity violation. Under a cipher some
bytes must decrypt to the frame (R151: there is an `Encrypt`). FRAME stands for its bytes: they take one step
each, and what is offered behind them stays. -/
def Obligations.AWholeFrameCommitsWithItsPayload : Prop :=
  ∀ (f : WireFrame) (s : State), Inv s → s.Idle →
    cfgWellFormed s.bufCap s.cfg = true → f.wf = true →
    s.cfg.minFrameSize.toNat ≤ f.packetLength.toNat → f.packetLength.toNat ≤ s.cfg.maxFrameSize.toNat →
    f.mac.length = (if s.cfg.macActive then s.cfg.macLength.toNat else 0) →
    (s.cfg.cipherActive = true → Encryptable s.cs (bytes4List (be32bytes f.packetLength) ++ frameBody f)) →
    let w := frameWire s.cfg s.cs f
    let t := State.readingWith { s with cmd := .decodeFrame, lCfg := s.cfg } 4
    let u := { s with
      lCfg := s.cfg, cur := s.cur + w.length,
      cs := if s.cfg.cipherActive then (decryptFrame s.cs (w.take (4 + f.packetLength.toNat))).1 else s.cs }
    w.length = 4 + f.packetLength.toNat + f.mac.length
      ∧ exec .decodeFrame s = .next t
      ∧ ∀ rest, Host.Core.run Sys2Proof.core w.length { t with script := .frame f :: rest }
        = .next { (if s.cfg.macActive = true ∧
              Config.macCompute s.seq (be32bytes f.packetLength) (frameBody f) ≠ f.mac
            then State.deadWith u .decodeFrame
              { code := .integrityViolation, kind := 0, reason := .none, expected := 0, actual := 0 }
            else State.committedWith u f.payload) with script := rest }

/-- R152, R88: the round-trip law on the machine itself. From an idle state that is offered a DECODE_FRAME
word and then the frame the reference encoder makes of a payload, the step of the command and one for each
byte of the frame answer the payload, leave the machine idle with `SEQ` one higher and nothing offered, and
move the cursor by the frame's length. Block alignment is not assumed. -/
def Obligations.TheRoundTripLawHolds : Prop :=
  ∀ (c : BitVec 33) (payload padding w : List Byte) (p : Byte) (s : State), Inv s → s.Idle →
    let f := referenceFrame s.cfg s.seq payload p padding
    s.script = [.command c, .frame f] → decodeCommand c = .decodeFrame →
    encodeFrame s.cfg s.seq s.cs payload p padding = some w →
    cfgWellFormed s.bufCap s.cfg = true →
    s.cfg.minFrameSize.toNat ≤ f.packetLength.toNat → f.packetLength.toNat ≤ s.cfg.maxFrameSize.toNat →
    (s.cfg.macActive = true → f.mac.length = s.cfg.macLength.toNat) →
    (s.cfg.cipherActive = true → Encryptable s.cs (bytes4List (be32bytes f.packetLength) ++ frameBody f)) →
    ∃ u, Host.Core.run Sys2Proof.core (1 + w.length) s = .next u
      ∧ u.responses = s.responses ++ [⟨.decodeFrame, .ok payload⟩]
      ∧ u.Idle ∧ u.seq = s.seq + 1 ∧ u.script = [] ∧ u.cur = s.cur + w.length

/-- R152, word for word: from an idle state that is offered a DECODE_FRAME word and then each byte the
reference encoder gives as an event of its own, one step for each of them answers the payload, leaves the
machine idle with `SEQ` one higher and nothing offered, and moves the cursor by the frame's length. -/
def Obligations.TheRoundTripLawHoldsByteByByte : Prop :=
  ∀ (c : BitVec 33) (payload padding w : List Byte) (p : Byte) (s : State), Inv s → s.Idle →
    let f := referenceFrame s.cfg s.seq payload p padding
    s.script = .command c :: w.map (fun b => Line.event (byteEvent b)) → decodeCommand c = .decodeFrame →
    encodeFrame s.cfg s.seq s.cs payload p padding = some w →
    cfgWellFormed s.bufCap s.cfg = true →
    s.cfg.minFrameSize.toNat ≤ f.packetLength.toNat → f.packetLength.toNat ≤ s.cfg.maxFrameSize.toNat →
    (s.cfg.macActive = true → f.mac.length = s.cfg.macLength.toNat) →
    (s.cfg.cipherActive = true → Encryptable s.cs (bytes4List (be32bytes f.packetLength) ++ frameBody f)) →
    ∃ u, Host.Core.run Sys2Proof.core (1 + w.length) s = .next u
      ∧ u.responses = s.responses ++ [⟨.decodeFrame, .ok payload⟩]
      ∧ u.Idle ∧ u.seq = s.seq + 1 ∧ u.script = [] ∧ u.cur = s.cur + w.length
end

