-- ==== Sys2Proof/Laws/Decode.lean ====
section
/-! SUPPORT. The byte order of the length field, and what the decoder of frames can answer. -/

namespace Sys2Proof

/-- R72, as a number: no sign, scaling or bias. -/
theorem be32_toNat (b : Bytes4) : (be32 b).toNat
    = b.b0.toNat * 2 ^ 24 + b.b1.toNat * 2 ^ 16 + b.b2.toNat * 2 ^ 8 + b.b3.toNat := by
  have h0 := b.b0.isLt
  have h1 := b.b1.isLt
  have h2 := b.b2.isLt
  have h3 := b.b3.isLt
  have shifted : ∀ (x : Byte) (k : Nat), k ≤ 24 → (x.setWidth 32 <<< k).toNat = x.toNat <<< k := by
    intro x k hk
    have hx := x.isLt
    have : x.toNat <<< k < 2 ^ 32 := by
      rw [Nat.shiftLeft_eq]
      calc x.toNat * 2 ^ k ≤ x.toNat * 2 ^ 24 := Nat.mul_le_mul_left _ (Nat.pow_le_pow_right (by omega) hk)
        _ < 2 ^ 32 := by omega
    rw [BitVec.toNat_shiftLeft, BitVec.toNat_setWidth, Nat.mod_eq_of_lt (a := x.toNat) (by omega),
      Nat.mod_eq_of_lt this]
  unfold be32
  rw [BitVec.toNat_or, BitVec.toNat_or, BitVec.toNat_or, shifted _ _ (by omega), shifted _ _ (by omega),
    shifted _ _ (by omega), BitVec.toNat_setWidth, Nat.mod_eq_of_lt (a := b.b3.toNat) (by omega),
    Nat.or_assoc, Nat.or_assoc, ← Nat.shiftLeft_add_eq_or_of_lt (b := b.b3.toNat) (by omega),
    ← Nat.shiftLeft_add_eq_or_of_lt (b := b.b2.toNat <<< 8 + _) (by rw [Nat.shiftLeft_eq]; omega),
    ← Nat.shiftLeft_add_eq_or_of_lt (b := b.b1.toNat <<< 16 + _)
      (by rw [Nat.shiftLeft_eq, Nat.shiftLeft_eq]; omega)]
  simp only [Nat.shiftLeft_eq]
  omega

/-- `be32bytes` is the inverse of `be32` (R14). -/
theorem be32bytes_be32 (b : Bytes4) : be32bytes (be32 b) = b := by
  rcases b with ⟨b0, b1, b2, b3⟩
  simp only [be32bytes, be32, Bytes4.mk.injEq]
  refine ⟨?_, ?_, ?_, ?_⟩ <;> apply BitVec.eq_of_getLsbD_eq <;> intro i hi <;>
    simp [BitVec.getLsbD_or, BitVec.getLsbD_shiftLeft, BitVec.getLsbD_setWidth, hi] <;>
    interval_cases i <;> simp

theorem be32_be32bytes (v : Word) : be32 (be32bytes v) = v := by
  apply BitVec.eq_of_getLsbD_eq
  intro i hi
  simp only [be32, be32bytes, BitVec.getLsbD_or, BitVec.getLsbD_shiftLeft, BitVec.getLsbD_setWidth,
    BitVec.getLsbD_extractLsb']
  interval_cases i <;> simp

theorem bytes4OfList_bytes4List (b : Bytes4) : bytes4OfList (bytes4List b) = b := rfl

/-- When a frame is well-formed (R70, R78). -/
theorem wireFrame_wf_iff (f : WireFrame) :
    f.wf = true ↔ f.packetLength.toNat = 1 + f.payload.length + f.padding.length
      ∧ f.padding.length = f.paddingLength.toNat ∧ 4 ≤ f.paddingLength.toNat := by
  simp [WireFrame.wf, and_assoc]

/-- All that the decoder can have found when it answers a frame (R71, R73, R78). -/
theorem decodeWireBody_ok {len : Word} {rest : List Byte} {f : WireFrame}
    (h : decodeWireBody len rest = .ok f) :
    ∃ p r, rest.take len.toNat = p :: r ∧ len.toNat ≤ rest.length ∧ 4 ≤ p.toNat
      ∧ 1 + p.toNat ≤ len.toNat ∧
      f = { packetLength := len, paddingLength := p, payload := r.take (len.toNat - p.toNat - 1),
            padding := r.drop (len.toNat - p.toNat - 1), mac := rest.drop len.toNat } := by
  unfold decodeWireBody at h
  split at h
  · cases h
  · split at h
    · cases h
    · next p r hpr =>
      split at h
      · cases h
      · split at h
        · cases h
        · refine ⟨p, r, hpr, by omega, by omega, by omega, ?_⟩
          injection h with h
          exact h.symm

/-- The command word the encoder gives for READ_EXACT selects it with its count (R82). -/
theorem decodeCommand_readExact (n : Word) : decodeCommand (n.setWidth 33) = .readExact n := by
  unfold decodeCommand
  have h : (n.setWidth 33).getLsbD 32 = false := by simp
  rw [if_neg (by rw [h]; exact Bool.false_ne_true)]
  congr 1
  apply BitVec.eq_of_getLsbD_eq
  intro i hi
  simp [hi]
  omega

/-- Decoding the bytes of a well-formed frame gives the frame back. -/
theorem decodeWire_encodeWire {f : WireFrame} (h : f.wf = true) : decodeWire (encodeWire f) = .ok f := by
  obtain ⟨h1, h2, h3⟩ := (wireFrame_wf_iff f).1 h
  rcases f with ⟨len, p, pay, pad, mac⟩
  simp only at h1 h2 h3
  simp only [encodeWire, bytes4List, decodeWire, List.cons_append, List.nil_append]
  rw [show be32 { b0 := (be32bytes len).b0, b1 := (be32bytes len).b1, b2 := (be32bytes len).b2, b3 := (be32bytes len).b3 } = len from be32_be32bytes len]
  have hlen : len.toNat = (pay ++ pad).length + 1 := by simp; omega
  have ht : List.take len.toNat (p :: (pay ++ pad ++ mac)) = p :: (pay ++ pad) := by
    rw [hlen, List.take_succ_cons, List.take_left]
  have hd : List.drop len.toNat (p :: (pay ++ pad ++ mac)) = mac := by
    rw [hlen, List.drop_succ_cons, List.drop_left]
  unfold decodeWireBody
  rw [if_neg (by simp; omega), ht]
  simp only
  rw [if_neg (by omega), if_neg (by omega), hd, show len.toNat - p.toNat - 1 = pay.length by omega,
    List.take_left, List.drop_left]

theorem decodeEvent_byteEvent (b : Byte) : decodeEvent (byteEvent b) = .tByte b := by
  revert b; decide

theorem decodeEvent_tErr (k : BitVec 2) : decodeEvent (0x200#10 ||| k.setWidth 10) = .tErr k := by
  revert k; decide

end Sys2Proof
end

