-- ==== Sys2Proof/Laws/State.lean ====
section
/-! SUPPORT. One lemma per field for each operation that updates the state, true by `rfl`, so that no
later proof unfolds a record update. -/

namespace Sys2Proof.Machine

/-! ### respond c r s -/

@[simp] theorem respond_cmd (c : Command) (r : Response) (s : State) : (respond c r s).cmd = s.cmd := rfl
@[simp] theorem respond_fst (c : Command) (r : Response) (s : State) : (respond c r s).fst = s.fst := rfl
@[simp] theorem respond_rdActive (c : Command) (r : Response) (s : State) : (respond c r s).rdActive = s.rdActive := rfl
@[simp] theorem respond_rdN (c : Command) (r : Response) (s : State) : (respond c r s).rdN = s.rdN := rfl
@[simp] theorem respond_rdK (c : Command) (r : Response) (s : State) : (respond c r s).rdK = s.rdK := rfl
@[simp] theorem respond_abuf (c : Command) (r : Response) (s : State) : (respond c r s).abuf = s.abuf := rfl
@[simp] theorem respond_seq (c : Command) (r : Response) (s : State) : (respond c r s).seq = s.seq := rfl
@[simp] theorem respond_pktLen (c : Command) (r : Response) (s : State) : (respond c r s).pktLen = s.pktLen := rfl
@[simp] theorem respond_padLen (c : Command) (r : Response) (s : State) : (respond c r s).padLen = s.padLen := rfl
@[simp] theorem respond_lenf (c : Command) (r : Response) (s : State) : (respond c r s).lenf = s.lenf := rfl
@[simp] theorem respond_body (c : Command) (r : Response) (s : State) : (respond c r s).body = s.body := rfl
@[simp] theorem respond_err (c : Command) (r : Response) (s : State) : (respond c r s).err = s.err := rfl
@[simp] theorem respond_cs (c : Command) (r : Response) (s : State) : (respond c r s).cs = s.cs := rfl
@[simp] theorem respond_lCfg (c : Command) (r : Response) (s : State) : (respond c r s).lCfg = s.lCfg := rfl
@[simp] theorem respond_cur (c : Command) (r : Response) (s : State) : (respond c r s).cur = s.cur := rfl
@[simp] theorem respond_cfg (c : Command) (r : Response) (s : State) : (respond c r s).cfg = s.cfg := rfl
@[simp] theorem respond_responses (c : Command) (r : Response) (s : State) : (respond c r s).responses = s.responses ++ [⟨c, r⟩] := rfl
@[simp] theorem respond_script (c : Command) (r : Response) (s : State) : (respond c r s).script = s.script := rfl
@[simp] theorem respond_bufCap (c : Command) (r : Response) (s : State) : (respond c r s).bufCap = s.bufCap := rfl
@[simp] theorem respond_csInit (c : Command) (r : Response) (s : State) : (respond c r s).csInit = s.csInit := rfl
@[simp] theorem respond_freeCount (c : Command) (r : Response) (s : State) : (respond c r s).freeCount = s.freeCount := rfl

/-! ### clearRead s -/

@[simp] theorem clearRead_cmd (s : State) : (clearRead s).cmd = s.cmd := rfl
@[simp] theorem clearRead_fst (s : State) : (clearRead s).fst = s.fst := rfl
@[simp] theorem clearRead_rdActive (s : State) : (clearRead s).rdActive = false := rfl
@[simp] theorem clearRead_rdN (s : State) : (clearRead s).rdN = 0 := rfl
@[simp] theorem clearRead_rdK (s : State) : (clearRead s).rdK = 0 := rfl
@[simp] theorem clearRead_abuf (s : State) : (clearRead s).abuf = [] := rfl
@[simp] theorem clearRead_seq (s : State) : (clearRead s).seq = s.seq := rfl
@[simp] theorem clearRead_pktLen (s : State) : (clearRead s).pktLen = s.pktLen := rfl
@[simp] theorem clearRead_padLen (s : State) : (clearRead s).padLen = s.padLen := rfl
@[simp] theorem clearRead_lenf (s : State) : (clearRead s).lenf = s.lenf := rfl
@[simp] theorem clearRead_body (s : State) : (clearRead s).body = s.body := rfl
@[simp] theorem clearRead_err (s : State) : (clearRead s).err = s.err := rfl
@[simp] theorem clearRead_cs (s : State) : (clearRead s).cs = s.cs := rfl
@[simp] theorem clearRead_lCfg (s : State) : (clearRead s).lCfg = s.lCfg := rfl
@[simp] theorem clearRead_cur (s : State) : (clearRead s).cur = s.cur := rfl
@[simp] theorem clearRead_cfg (s : State) : (clearRead s).cfg = s.cfg := rfl
@[simp] theorem clearRead_responses (s : State) : (clearRead s).responses = s.responses := rfl
@[simp] theorem clearRead_script (s : State) : (clearRead s).script = s.script := rfl
@[simp] theorem clearRead_bufCap (s : State) : (clearRead s).bufCap = s.bufCap := rfl
@[simp] theorem clearRead_csInit (s : State) : (clearRead s).csInit = s.csInit := rfl
@[simp] theorem clearRead_freeCount (s : State) : (clearRead s).freeCount = s.freeCount := rfl

/-! ### beginRead n s -/

@[simp] theorem beginRead_cmd (n : Word) (s : State) : (beginRead n s).cmd = s.cmd := rfl
@[simp] theorem beginRead_fst (n : Word) (s : State) : (beginRead n s).fst = s.fst := rfl
@[simp] theorem beginRead_rdActive (n : Word) (s : State) : (beginRead n s).rdActive = true := rfl
@[simp] theorem beginRead_rdN (n : Word) (s : State) : (beginRead n s).rdN = n := rfl
@[simp] theorem beginRead_rdK (n : Word) (s : State) : (beginRead n s).rdK = 0 := rfl
@[simp] theorem beginRead_abuf (n : Word) (s : State) : (beginRead n s).abuf = [] := rfl
@[simp] theorem beginRead_seq (n : Word) (s : State) : (beginRead n s).seq = s.seq := rfl
@[simp] theorem beginRead_pktLen (n : Word) (s : State) : (beginRead n s).pktLen = s.pktLen := rfl
@[simp] theorem beginRead_padLen (n : Word) (s : State) : (beginRead n s).padLen = s.padLen := rfl
@[simp] theorem beginRead_lenf (n : Word) (s : State) : (beginRead n s).lenf = s.lenf := rfl
@[simp] theorem beginRead_body (n : Word) (s : State) : (beginRead n s).body = s.body := rfl
@[simp] theorem beginRead_err (n : Word) (s : State) : (beginRead n s).err = s.err := rfl
@[simp] theorem beginRead_cs (n : Word) (s : State) : (beginRead n s).cs = s.cs := rfl
@[simp] theorem beginRead_lCfg (n : Word) (s : State) : (beginRead n s).lCfg = s.lCfg := rfl
@[simp] theorem beginRead_cur (n : Word) (s : State) : (beginRead n s).cur = s.cur := rfl
@[simp] theorem beginRead_cfg (n : Word) (s : State) : (beginRead n s).cfg = s.cfg := rfl
@[simp] theorem beginRead_responses (n : Word) (s : State) : (beginRead n s).responses = s.responses := rfl
@[simp] theorem beginRead_script (n : Word) (s : State) : (beginRead n s).script = s.script := rfl
@[simp] theorem beginRead_bufCap (n : Word) (s : State) : (beginRead n s).bufCap = s.bufCap := rfl
@[simp] theorem beginRead_csInit (n : Word) (s : State) : (beginRead n s).csInit = s.csInit := rfl
@[simp] theorem beginRead_freeCount (n : Word) (s : State) : (beginRead n s).freeCount = s.freeCount := rfl

/-! ### clearFrame s -/

@[simp] theorem clearFrame_cmd (s : State) : (clearFrame s).cmd = s.cmd := rfl
@[simp] theorem clearFrame_fst (s : State) : (clearFrame s).fst = s.fst := rfl
@[simp] theorem clearFrame_rdActive (s : State) : (clearFrame s).rdActive = s.rdActive := rfl
@[simp] theorem clearFrame_rdN (s : State) : (clearFrame s).rdN = s.rdN := rfl
@[simp] theorem clearFrame_rdK (s : State) : (clearFrame s).rdK = s.rdK := rfl
@[simp] theorem clearFrame_abuf (s : State) : (clearFrame s).abuf = s.abuf := rfl
@[simp] theorem clearFrame_seq (s : State) : (clearFrame s).seq = s.seq := rfl
@[simp] theorem clearFrame_pktLen (s : State) : (clearFrame s).pktLen = 0 := rfl
@[simp] theorem clearFrame_padLen (s : State) : (clearFrame s).padLen = 0 := rfl
@[simp] theorem clearFrame_lenf (s : State) : (clearFrame s).lenf = { b0 := 0, b1 := 0, b2 := 0, b3 := 0 } := rfl
@[simp] theorem clearFrame_body (s : State) : (clearFrame s).body = [] := rfl
@[simp] theorem clearFrame_err (s : State) : (clearFrame s).err = s.err := rfl
@[simp] theorem clearFrame_cs (s : State) : (clearFrame s).cs = s.cs := rfl
@[simp] theorem clearFrame_lCfg (s : State) : (clearFrame s).lCfg = s.lCfg := rfl
@[simp] theorem clearFrame_cur (s : State) : (clearFrame s).cur = s.cur := rfl
@[simp] theorem clearFrame_cfg (s : State) : (clearFrame s).cfg = s.cfg := rfl
@[simp] theorem clearFrame_responses (s : State) : (clearFrame s).responses = s.responses := rfl
@[simp] theorem clearFrame_script (s : State) : (clearFrame s).script = s.script := rfl
@[simp] theorem clearFrame_bufCap (s : State) : (clearFrame s).bufCap = s.bufCap := rfl
@[simp] theorem clearFrame_csInit (s : State) : (clearFrame s).csInit = s.csInit := rfl
@[simp] theorem clearFrame_freeCount (s : State) : (clearFrame s).freeCount = s.freeCount := rfl

/-! ### (seqNext s).2 -/

@[simp] theorem seqNext_snd_cmd (s : State) : ((seqNext s).2).cmd = s.cmd := rfl
@[simp] theorem seqNext_snd_fst (s : State) : ((seqNext s).2).fst = s.fst := rfl
@[simp] theorem seqNext_snd_rdActive (s : State) : ((seqNext s).2).rdActive = s.rdActive := rfl
@[simp] theorem seqNext_snd_rdN (s : State) : ((seqNext s).2).rdN = s.rdN := rfl
@[simp] theorem seqNext_snd_rdK (s : State) : ((seqNext s).2).rdK = s.rdK := rfl
@[simp] theorem seqNext_snd_abuf (s : State) : ((seqNext s).2).abuf = s.abuf := rfl
@[simp] theorem seqNext_snd_seq (s : State) : ((seqNext s).2).seq = s.seq + 1 := rfl
@[simp] theorem seqNext_snd_pktLen (s : State) : ((seqNext s).2).pktLen = s.pktLen := rfl
@[simp] theorem seqNext_snd_padLen (s : State) : ((seqNext s).2).padLen = s.padLen := rfl
@[simp] theorem seqNext_snd_lenf (s : State) : ((seqNext s).2).lenf = s.lenf := rfl
@[simp] theorem seqNext_snd_body (s : State) : ((seqNext s).2).body = s.body := rfl
@[simp] theorem seqNext_snd_err (s : State) : ((seqNext s).2).err = s.err := rfl
@[simp] theorem seqNext_snd_cs (s : State) : ((seqNext s).2).cs = s.cs := rfl
@[simp] theorem seqNext_snd_lCfg (s : State) : ((seqNext s).2).lCfg = s.lCfg := rfl
@[simp] theorem seqNext_snd_cur (s : State) : ((seqNext s).2).cur = s.cur := rfl
@[simp] theorem seqNext_snd_cfg (s : State) : ((seqNext s).2).cfg = s.cfg := rfl
@[simp] theorem seqNext_snd_responses (s : State) : ((seqNext s).2).responses = s.responses := rfl
@[simp] theorem seqNext_snd_script (s : State) : ((seqNext s).2).script = s.script := rfl
@[simp] theorem seqNext_snd_bufCap (s : State) : ((seqNext s).2).bufCap = s.bufCap := rfl
@[simp] theorem seqNext_snd_csInit (s : State) : ((seqNext s).2).csInit = s.csInit := rfl
@[simp] theorem seqNext_snd_freeCount (s : State) : ((seqNext s).2).freeCount = s.freeCount := rfl

/-! ### raise c f s -/

@[simp] theorem raise_cmd (c : Command) (f : Failure) (s : State) : (raise c f s).cmd = .none := rfl
@[simp] theorem raise_fst (c : Command) (f : Failure) (s : State) : (raise c f s).fst = .failed := rfl
@[simp] theorem raise_rdActive (c : Command) (f : Failure) (s : State) : (raise c f s).rdActive = false := rfl
@[simp] theorem raise_rdN (c : Command) (f : Failure) (s : State) : (raise c f s).rdN = 0 := rfl
@[simp] theorem raise_rdK (c : Command) (f : Failure) (s : State) : (raise c f s).rdK = 0 := rfl
@[simp] theorem raise_abuf (c : Command) (f : Failure) (s : State) : (raise c f s).abuf = [] := rfl
@[simp] theorem raise_seq (c : Command) (f : Failure) (s : State) : (raise c f s).seq = s.seq := rfl
@[simp] theorem raise_pktLen (c : Command) (f : Failure) (s : State) : (raise c f s).pktLen = 0 := rfl
@[simp] theorem raise_padLen (c : Command) (f : Failure) (s : State) : (raise c f s).padLen = 0 := rfl
@[simp] theorem raise_lenf (c : Command) (f : Failure) (s : State) : (raise c f s).lenf = { b0 := 0, b1 := 0, b2 := 0, b3 := 0 } := rfl
@[simp] theorem raise_body (c : Command) (f : Failure) (s : State) : (raise c f s).body = [] := rfl
@[simp] theorem raise_err (c : Command) (f : Failure) (s : State) : (raise c f s).err = failureRecord f := rfl
@[simp] theorem raise_cs (c : Command) (f : Failure) (s : State) : (raise c f s).cs = s.cs := rfl
@[simp] theorem raise_lCfg (c : Command) (f : Failure) (s : State) : (raise c f s).lCfg = s.lCfg := rfl
@[simp] theorem raise_cur (c : Command) (f : Failure) (s : State) : (raise c f s).cur = s.cur := rfl
@[simp] theorem raise_cfg (c : Command) (f : Failure) (s : State) : (raise c f s).cfg = s.cfg := rfl
@[simp] theorem raise_responses (c : Command) (f : Failure) (s : State) : (raise c f s).responses = s.responses ++ [⟨c, .fail (failureRecord f)⟩] := rfl
@[simp] theorem raise_script (c : Command) (f : Failure) (s : State) : (raise c f s).script = s.script := rfl
@[simp] theorem raise_bufCap (c : Command) (f : Failure) (s : State) : (raise c f s).bufCap = s.bufCap := rfl
@[simp] theorem raise_csInit (c : Command) (f : Failure) (s : State) : (raise c f s).csInit = s.csInit := rfl
@[simp] theorem raise_freeCount (c : Command) (f : Failure) (s : State) : (raise c f s).freeCount = s.freeCount := rfl

/-! ### commit s -/

@[simp] theorem commit_cmd (s : State) : (commit s).cmd = .none := rfl
@[simp] theorem commit_fst (s : State) : (commit s).fst = .awaitingLength := rfl
@[simp] theorem commit_rdActive (s : State) : (commit s).rdActive = s.rdActive := rfl
@[simp] theorem commit_rdN (s : State) : (commit s).rdN = s.rdN := rfl
@[simp] theorem commit_rdK (s : State) : (commit s).rdK = s.rdK := rfl
@[simp] theorem commit_abuf (s : State) : (commit s).abuf = s.abuf := rfl
@[simp] theorem commit_seq (s : State) : (commit s).seq = s.seq + 1 := rfl
@[simp] theorem commit_pktLen (s : State) : (commit s).pktLen = 0 := rfl
@[simp] theorem commit_padLen (s : State) : (commit s).padLen = 0 := rfl
@[simp] theorem commit_lenf (s : State) : (commit s).lenf = { b0 := 0, b1 := 0, b2 := 0, b3 := 0 } := rfl
@[simp] theorem commit_body (s : State) : (commit s).body = [] := rfl
@[simp] theorem commit_err (s : State) : (commit s).err = s.err := rfl
@[simp] theorem commit_cs (s : State) : (commit s).cs = s.cs := rfl
@[simp] theorem commit_lCfg (s : State) : (commit s).lCfg = s.lCfg := rfl
@[simp] theorem commit_cur (s : State) : (commit s).cur = s.cur := rfl
@[simp] theorem commit_cfg (s : State) : (commit s).cfg = s.cfg := rfl
@[simp] theorem commit_responses (s : State) : (commit s).responses = s.responses ++ [⟨.decodeFrame, .ok (payloadOf s.body s.pktLen s.padLen)⟩] := rfl
@[simp] theorem commit_script (s : State) : (commit s).script = s.script := rfl
@[simp] theorem commit_bufCap (s : State) : (commit s).bufCap = s.bufCap := rfl
@[simp] theorem commit_csInit (s : State) : (commit s).csInit = s.csInit := rfl
@[simp] theorem commit_freeCount (s : State) : (commit s).freeCount = s.freeCount := rfl

/-! ### resetStep s -/

@[simp] theorem resetStep_cmd (s : State) : (resetStep s).cmd = .none := rfl
@[simp] theorem resetStep_fst (s : State) : (resetStep s).fst = .awaitingLength := rfl
@[simp] theorem resetStep_rdActive (s : State) : (resetStep s).rdActive = false := rfl
@[simp] theorem resetStep_rdN (s : State) : (resetStep s).rdN = 0 := rfl
@[simp] theorem resetStep_rdK (s : State) : (resetStep s).rdK = 0 := rfl
@[simp] theorem resetStep_abuf (s : State) : (resetStep s).abuf = [] := rfl
@[simp] theorem resetStep_seq (s : State) : (resetStep s).seq = 0 := rfl
@[simp] theorem resetStep_pktLen (s : State) : (resetStep s).pktLen = 0 := rfl
@[simp] theorem resetStep_padLen (s : State) : (resetStep s).padLen = 0 := rfl
@[simp] theorem resetStep_lenf (s : State) : (resetStep s).lenf = { b0 := 0, b1 := 0, b2 := 0, b3 := 0 } := rfl
@[simp] theorem resetStep_body (s : State) : (resetStep s).body = [] := rfl
@[simp] theorem resetStep_err (s : State) : (resetStep s).err = FailureRecord.clear := rfl
@[simp] theorem resetStep_cs (s : State) : (resetStep s).cs = s.csInit := rfl
@[simp] theorem resetStep_lCfg (s : State) : (resetStep s).lCfg = Config.freeCfg s.freeCount := rfl
@[simp] theorem resetStep_cur (s : State) : (resetStep s).cur = 0 := rfl
@[simp] theorem resetStep_cfg (s : State) : (resetStep s).cfg = s.cfg := rfl
@[simp] theorem resetStep_responses (s : State) : (resetStep s).responses = s.responses := rfl
@[simp] theorem resetStep_script (s : State) : (resetStep s).script = s.script := rfl
@[simp] theorem resetStep_bufCap (s : State) : (resetStep s).bufCap = s.bufCap := rfl
@[simp] theorem resetStep_csInit (s : State) : (resetStep s).csInit = s.csInit := rfl
@[simp] theorem resetStep_freeCount (s : State) : (resetStep s).freeCount = s.freeCount + 1 := rfl

/-! ### s.atStep t -/

@[simp] theorem State.atStep_cmd (t : Taken) (s : State) : (s.atStep t).cmd = s.cmd := rfl
@[simp] theorem State.atStep_fst (t : Taken) (s : State) : (s.atStep t).fst = s.fst := rfl
@[simp] theorem State.atStep_rdActive (t : Taken) (s : State) : (s.atStep t).rdActive = s.rdActive := rfl
@[simp] theorem State.atStep_rdN (t : Taken) (s : State) : (s.atStep t).rdN = s.rdN := rfl
@[simp] theorem State.atStep_rdK (t : Taken) (s : State) : (s.atStep t).rdK = s.rdK := rfl
@[simp] theorem State.atStep_abuf (t : Taken) (s : State) : (s.atStep t).abuf = s.abuf := rfl
@[simp] theorem State.atStep_seq (t : Taken) (s : State) : (s.atStep t).seq = s.seq := rfl
@[simp] theorem State.atStep_pktLen (t : Taken) (s : State) : (s.atStep t).pktLen = s.pktLen := rfl
@[simp] theorem State.atStep_padLen (t : Taken) (s : State) : (s.atStep t).padLen = s.padLen := rfl
@[simp] theorem State.atStep_lenf (t : Taken) (s : State) : (s.atStep t).lenf = s.lenf := rfl
@[simp] theorem State.atStep_body (t : Taken) (s : State) : (s.atStep t).body = s.body := rfl
@[simp] theorem State.atStep_err (t : Taken) (s : State) : (s.atStep t).err = s.err := rfl
@[simp] theorem State.atStep_cs (t : Taken) (s : State) : (s.atStep t).cs = s.cs := rfl
@[simp] theorem State.atStep_lCfg (t : Taken) (s : State) : (s.atStep t).lCfg = s.lCfg := rfl
@[simp] theorem State.atStep_cur (t : Taken) (s : State) : (s.atStep t).cur = s.cur := rfl
@[simp] theorem State.atStep_cfg (t : Taken) (s : State) : (s.atStep t).cfg = t.inputs := rfl
@[simp] theorem State.atStep_responses (t : Taken) (s : State) : (s.atStep t).responses = s.responses := rfl
@[simp] theorem State.atStep_script (t : Taken) (s : State) : (s.atStep t).script = t.offered := rfl
@[simp] theorem State.atStep_bufCap (t : Taken) (s : State) : (s.atStep t).bufCap = s.bufCap := rfl
@[simp] theorem State.atStep_csInit (t : Taken) (s : State) : (s.atStep t).csInit = s.csInit := rfl
@[simp] theorem State.atStep_freeCount (t : Taken) (s : State) : (s.atStep t).freeCount = s.freeCount := rfl

/-! ### offerBytes bs s -/

@[simp] theorem offerBytes_cmd (bs : List Byte) (s : State) : (offerBytes bs s).cmd = s.cmd := rfl
@[simp] theorem offerBytes_fst (bs : List Byte) (s : State) : (offerBytes bs s).fst = s.fst := rfl
@[simp] theorem offerBytes_rdActive (bs : List Byte) (s : State) : (offerBytes bs s).rdActive = s.rdActive := rfl
@[simp] theorem offerBytes_rdN (bs : List Byte) (s : State) : (offerBytes bs s).rdN = s.rdN := rfl
@[simp] theorem offerBytes_rdK (bs : List Byte) (s : State) : (offerBytes bs s).rdK = s.rdK := rfl
@[simp] theorem offerBytes_abuf (bs : List Byte) (s : State) : (offerBytes bs s).abuf = s.abuf := rfl
@[simp] theorem offerBytes_seq (bs : List Byte) (s : State) : (offerBytes bs s).seq = s.seq := rfl
@[simp] theorem offerBytes_pktLen (bs : List Byte) (s : State) : (offerBytes bs s).pktLen = s.pktLen := rfl
@[simp] theorem offerBytes_padLen (bs : List Byte) (s : State) : (offerBytes bs s).padLen = s.padLen := rfl
@[simp] theorem offerBytes_lenf (bs : List Byte) (s : State) : (offerBytes bs s).lenf = s.lenf := rfl
@[simp] theorem offerBytes_body (bs : List Byte) (s : State) : (offerBytes bs s).body = s.body := rfl
@[simp] theorem offerBytes_err (bs : List Byte) (s : State) : (offerBytes bs s).err = s.err := rfl
@[simp] theorem offerBytes_cs (bs : List Byte) (s : State) : (offerBytes bs s).cs = s.cs := rfl
@[simp] theorem offerBytes_lCfg (bs : List Byte) (s : State) : (offerBytes bs s).lCfg = s.lCfg := rfl
@[simp] theorem offerBytes_cur (bs : List Byte) (s : State) : (offerBytes bs s).cur = s.cur := rfl
@[simp] theorem offerBytes_cfg (bs : List Byte) (s : State) : (offerBytes bs s).cfg = s.cfg := rfl
@[simp] theorem offerBytes_responses (bs : List Byte) (s : State) : (offerBytes bs s).responses = s.responses := rfl
@[simp] theorem offerBytes_script (bs : List Byte) (s : State) : (offerBytes bs s).script = byteLines bs ++ s.script := rfl
@[simp] theorem offerBytes_bufCap (bs : List Byte) (s : State) : (offerBytes bs s).bufCap = s.bufCap := rfl
@[simp] theorem offerBytes_csInit (bs : List Byte) (s : State) : (offerBytes bs s).csInit = s.csInit := rfl
@[simp] theorem offerBytes_freeCount (bs : List Byte) (s : State) : (offerBytes bs s).freeCount = s.freeCount := rfl

end Sys2Proof.Machine
end

