-- ==== Sys2Proof/Laws/Ops.lean ====
section
/-! SUPPORT. One lemma for each shared operation that says what it can do, for the proofs to cite instead
of unfolding it. -/

namespace Sys2Proof.Machine

/-! ### Status signals -/

theorem tReady_iff (s : State) : s.tReady = true ↔ s.rdActive = true ∧ s.rdK < s.rdN := by
  simp [State.tReady]

theorem cmdReady_iff (s : State) : s.cmdReady = true ↔ s.cmd = .none := by
  simp [State.cmdReady]

theorem dead_iff (s : State) : s.dead = true ↔ s.fst = .failed := by
  simp [State.dead]

theorem tReady_false_of_inactive {s : State} (h : s.rdActive = false) : s.tReady = false := by
  simp [State.tReady, h]

/-- The count of an outstanding read does not overflow (R25, R104). -/
theorem rdK_succ_toNat {s : State} (h : s.tReady = true) : (s.rdK + 1).toNat = s.rdK.toNat + 1 := by
  have h2 := ((tReady_iff s).1 h).2
  rw [BitVec.lt_def] at h2
  have := s.rdN.isLt
  rw [BitVec.toNat_add]
  show (s.rdK.toNat + 1) % 2 ^ 32 = _
  omega

theorem rdK_succ_toNat_lt {s : State} (h : s.tReady = true) : s.rdK.toNat + 1 < 2 ^ 32 := by
  have h2 := ((tReady_iff s).1 h).2
  rw [BitVec.lt_def] at h2
  have := s.rdN.isLt
  omega

/-- A byte that is not the last leaves the read short of its count. -/
theorem rdK_succ_lt {s : State} (h : s.tReady = true) (hne : s.rdK + 1 ≠ s.rdN) : s.rdK + 1 < s.rdN := by
  have h2 := ((tReady_iff s).1 h).2
  have h3 := rdK_succ_toNat h
  have hne' : (s.rdK + 1).toNat ≠ s.rdN.toNat := fun hc => hne (BitVec.eq_of_toNat_eq hc)
  rw [BitVec.lt_def] at h2 ⊢
  omega

/-! ### Reads, failures, commit -/

theorem startRead_zero (k : State → State) (s : State) : startRead 0 k s = k (clearRead s) := rfl

theorem startRead_pos {n : Word} (h : n ≠ 0) (k : State → State) (s : State) :
    startRead n k s = s.readingWith n :=
  if_neg h

theorem raise_eq (c : Command) (f : Failure) (s : State) : raise c f s = s.deadWith c (failureRecord f) := rfl

/-- Failure entry forgets the outstanding read (R170). -/
theorem raise_clearRead (c : Command) (f : Failure) (s : State) : raise c f (clearRead s) = raise c f s := rfl

theorem commit_clearRead (s : State) :
    commit (clearRead s) = s.committedWith (slice s.body 1 (s.pktLen.toNat - s.padLen.toNat)) := rfl

theorem clearRead_idem (s : State) : clearRead (clearRead s) = clearRead s := rfl

theorem clearRead_of_noRead {s : State} (h1 : s.rdActive = false) (h2 : s.rdN = 0) (h3 : s.rdK = 0)
    (h4 : s.abuf = []) : clearRead s = s := by
  cases s
  simp_all [clearRead]

theorem decryptIfActive_eq (data : List Byte) (s : State) :
    decryptIfActive data s = ({ s with cs := s.csAfter data }, s.plain data) := by
  unfold decryptIfActive State.csAfter State.plain
  split <;> rfl

/-- A transport failure is failure entry from a state that may have a new cipher state (R105, R106). -/
theorem takeFailure_eq (f : Failure) (s : State) :
    takeFailure f s = (loseCipher s).deadWith s.command (failureRecord f) := rfl

/-- All that losing the cipher state can do (R136). -/
theorem loseCipher_cases (s : State) :
    loseCipher s = s ∨
      (s.cmd = .decodeFrame ∧ s.fst = .awaitingBody ∧ s.lCfg.cipherActive = true ∧ s.rdK ≠ 0
        ∧ loseCipher s = { s with cs := Config.freeCipherState s.freeCount s.cs s.abuf, freeCount := s.freeCount + 1 }) := by
  unfold loseCipher
  split
  · next h => exact .inr ⟨h.1, h.2.1, h.2.2.1, h.2.2.2, rfl⟩
  · exact .inl rfl

/-! ### One byte -/

/-- A read of a frame that completes goes on with the assembler (R107). -/
theorem readDone_frame {data : List Byte} {s : State} (h : s.cmd = .decodeFrame) :
    readDone data s = continueFrame data (clearRead s) := by
  simp [readDone, h]

/-- The state after a byte has been collected and before the read completes. -/
theorem takeByte_collects {s : State} {b : Byte} (h : s.rdK + 1 ≠ s.rdN) :
    takeByte b s = { s with abuf := s.abuf ++ [b], rdK := s.rdK + 1, cur := s.cur + 1 } :=
  if_neg h

theorem takeByte_completes {s : State} {b : Byte} (h : s.rdK + 1 = s.rdN) :
    takeByte b s = readDone (s.abuf ++ [b])
      { s with abuf := s.abuf ++ [b], rdK := s.rdK + 1, cur := s.cur + 1 } :=
  if_pos h

theorem takeByte_completes_direct {s : State} {b : Byte} (h : s.rdK + 1 = s.rdN) (hc : s.cmd = .readExact) :
    takeByte b s =
      { s with cmd := .none, rdActive := false, rdN := 0, rdK := 0, abuf := [], cur := s.cur + 1,
               responses := s.responses ++ [⟨.readExact s.rdN, .ok (s.abuf ++ [b])⟩] } := by
  rw [takeByte_completes h]
  cases s
  simp_all [readDone, clearRead, respond, State.command]

theorem takeByte_completes_frame {s : State} {b : Byte} (h : s.rdK + 1 = s.rdN) (hc : s.cmd ≠ .readExact) :
    takeByte b s = continueFrame (s.abuf ++ [b]) (clearRead { s with cur := s.cur + 1 }) := by
  rw [takeByte_completes h]
  cases s with
  | mk cmd =>
    cases cmd
    · rfl
    · exact absurd rfl hc
    · rfl

/-! ### The stages of a frame, from a state with no read outstanding -/

/-- The length stage (R133 to R135): what it does with the decrypted four bytes. -/
theorem lengthStage_eq (data : List Byte) (s : State) :
    lengthStage data s =
      let lenf := bytes4OfList (s.plain data)
      let u := { s with cs := s.csAfter data, lenf := lenf, pktLen := be32 lenf }
      if lengthInBounds s.lCfg (be32 lenf) then startRead (be32 lenf) (bodyStage []) { u with fst := .awaitingBody }
      else raise .decodeFrame (.protocolViolation .lengthOutOfBounds) u := by
  unfold lengthStage
  rw [decryptIfActive_eq]

/-- The body stage (R137 to R141): what it does with the decrypted body. -/
theorem bodyStage_eq (data : List Byte) (s : State) :
    bodyStage data s =
      let u := { s with cs := s.csAfter data, body := s.plain data }
      match paddingFault (s.plain data) s.pktLen with
      | some f => raise .decodeFrame f u
      | none => afterPadding { u with padLen := (s.plain data).headD 0 } := by
  unfold bodyStage
  rw [decryptIfActive_eq] <;> rfl

theorem paddingFault_none {body : List Byte} {len : Word} :
    paddingFault body len = none ↔
      len ≠ 0 ∧ 4 ≤ (body.headD 0).toNat ∧ 1 + (body.headD 0).toNat ≤ len.toNat := by
  unfold paddingFault
  split
  · simp_all
  · split
    · simp_all
    · split
      · simp_all
      · simp_all

/-- Every failure of the padding check is a protocol violation for the padding (R163). -/
theorem paddingFault_some {body : List Byte} {len : Word} {f : Failure} (h : paddingFault body len = some f) :
    f = .protocolViolation .paddingTooShort ∨ f = .protocolViolation .paddingExceedsPacket := by
  unfold paddingFault at h
  split at h
  · simp_all
  · split at h
    · simp_all
    · split at h <;> simp_all

theorem macStage_eq (data : List Byte) (s : State) :
    macStage data s = if Config.macCompute s.seq s.lenf s.body = data then commit s
      else raise .decodeFrame .integrityViolation s := rfl

/-- An empty body fails (R138), whatever the cipher makes of no bytes. -/
theorem bodyStage_empty {s : State} (h : s.pktLen = 0) :
    bodyStage [] s = raise .decodeFrame (.protocolViolation .paddingExceedsPacket)
      { s with cs := s.csAfter [], body := s.plain [] } := by
  rw [bodyStage_eq]
  simp [paddingFault, h]

end Sys2Proof.Machine
end

