-- ==== Sys2Proof/Laws/Stages.lean ====
section
/-! SUPPORT. What the last byte of each read does, as one equation a stage, and the inversion of
`takeByte`: all that one consumed byte can do. -/

namespace Sys2Proof.Machine

/-- The record of a protocol violation (R163). -/
theorem failureRecord_protocol (r : Reason) :
    failureRecord (.protocolViolation r) =
      { code := .protocolViolation, kind := 0, reason := r, expected := 0, actual := 0 } := rfl

/-- The length stage with a length out of bounds (R134). -/
theorem lengthStage_outOfBounds {data : List Byte} {s : State}
    (h : lengthInBounds s.lCfg (be32 (bytes4OfList (s.plain data))) = false) :
    lengthStage data (clearRead s) =
      State.deadWith { s with cs := s.csAfter data } .decodeFrame (failureRecord (.protocolViolation .lengthOutOfBounds)) := by
  rw [lengthStage_eq]
  exact if_neg (by rw [Bool.not_eq_true]; exact h)

/-- The length stage with a good length that is not 0 (R133, R135). -/
theorem lengthStage_startsBody {data : List Byte} {s : State}
    (h : lengthInBounds s.lCfg (be32 (bytes4OfList (s.plain data))) = true)
    (h0 : be32 (bytes4OfList (s.plain data)) ≠ 0) :
    lengthStage data (clearRead s) =
      State.readingWith { s with cs := s.csAfter data, fst := .awaitingBody,
                                 lenf := bytes4OfList (s.plain data),
                                 pktLen := be32 (bytes4OfList (s.plain data)) }
        (be32 (bytes4OfList (s.plain data))) := by
  rw [lengthStage_eq]
  refine (if_pos h).trans ?_
  exact startRead_pos h0 _ _

/-- The length stage with a length of 0 within the bounds (R135, R138). -/
theorem lengthStage_empty {data : List Byte} {s : State}
    (h : lengthInBounds s.lCfg (be32 (bytes4OfList (s.plain data))) = true)
    (h0 : be32 (bytes4OfList (s.plain data)) = 0) :
    lengthStage data (clearRead s) =
      State.deadWith { s with cs := State.csAfter { s with cs := s.csAfter data } [] }
        .decodeFrame (failureRecord (.protocolViolation .paddingExceedsPacket)) := by
  rw [lengthStage_eq]
  refine (if_pos h).trans ?_
  show startRead (be32 (bytes4OfList (s.plain data))) _ _ = _
  rw [h0, startRead_zero, bodyStage_empty (by exact h0)]
  rfl

/-- The body stage with bad padding (R138, R139). -/
theorem bodyStage_bad {data : List Byte} {s : State} {f : Failure}
    (h : paddingFault (s.plain data) s.pktLen = some f) :
    bodyStage data (clearRead s) = State.deadWith { s with cs := s.csAfter data } .decodeFrame (failureRecord f) := by
  rw [bodyStage_eq]
  have h' : paddingFault ((clearRead s).plain data) (clearRead s).pktLen = some f := h
  simp only [h']
  rfl

/-- The body stage with good padding and no MAC (R145). -/
theorem bodyStage_commits {data : List Byte} {s : State}
    (h : paddingFault (s.plain data) s.pktLen = none) (hm : s.lCfg.macActive = false) :
    bodyStage data (clearRead s) =
      State.committedWith { s with cs := s.csAfter data }
        (slice (s.plain data) 1 (s.pktLen.toNat - ((s.plain data).headD 0).toNat)) := by
  rw [bodyStage_eq]
  have h' : paddingFault ((clearRead s).plain data) (clearRead s).pktLen = none := h
  simp only [h']
  refine (if_neg ?_).trans rfl
  show ¬ s.lCfg.macActive = true
  rw [hm]; exact Bool.false_ne_true

/-- The body stage with good padding and a MAC of at least one byte (R141). -/
theorem bodyStage_startsMac {data : List Byte} {s : State}
    (h : paddingFault (s.plain data) s.pktLen = none) (hm : s.lCfg.macActive = true)
    (hl : s.lCfg.macLength ≠ 0) :
    bodyStage data (clearRead s) =
      State.readingWith { s with cs := s.csAfter data, fst := .awaitingMac, body := s.plain data,
                                 padLen := (s.plain data).headD 0 } s.lCfg.macLength := by
  rw [bodyStage_eq]
  have h' : paddingFault ((clearRead s).plain data) (clearRead s).pktLen = none := h
  simp only [h']
  refine (if_pos ?_).trans ?_
  · exact hm
  · exact startRead_pos (by exact hl) _ _

/-- The body stage with good padding and a MAC of no bytes (R141, R143). -/
theorem bodyStage_emptyMac {data : List Byte} {s : State}
    (h : paddingFault (s.plain data) s.pktLen = none) (hm : s.lCfg.macActive = true)
    (hl : s.lCfg.macLength = 0) :
    bodyStage data (clearRead s) =
      if Config.macCompute s.seq s.lenf (s.plain data) = [] then
        State.committedWith { s with cs := s.csAfter data }
          (slice (s.plain data) 1 (s.pktLen.toNat - ((s.plain data).headD 0).toNat))
      else State.deadWith { s with cs := s.csAfter data } .decodeFrame (failureRecord .integrityViolation) := by
  rw [bodyStage_eq]
  have h' : paddingFault ((clearRead s).plain data) (clearRead s).pktLen = none := h
  simp only [h']
  refine (if_pos ?_).trans ?_
  · exact hm
  · show startRead s.lCfg.macLength _ _ = _
    rw [hl, startRead_zero]
    rfl

/-- The MAC stage (R143). -/
theorem macStage_clearRead (data : List Byte) (s : State) :
    macStage data (clearRead s) =
      if Config.macCompute s.seq s.lenf s.body = data then
        s.committedWith (slice s.body 1 (s.pktLen.toNat - s.padLen.toNat))
      else s.deadWith .decodeFrame (failureRecord .integrityViolation) := rfl

/-! ### Which stage a completed read goes on with (R132) -/

theorem continueFrame_length {data : List Byte} {s : State} (h : s.fst = .awaitingLength) :
    continueFrame data (clearRead s) = lengthStage data (clearRead s) := by simp [continueFrame, h]

theorem continueFrame_body {data : List Byte} {s : State} (h : s.fst = .awaitingBody) :
    continueFrame data (clearRead s) = bodyStage data (clearRead s) := by simp [continueFrame, h]

theorem continueFrame_mac {data : List Byte} {s : State} (h : s.fst = .awaitingMac) :
    continueFrame data (clearRead s) = macStage data (clearRead s) := by simp [continueFrame, h]

/-- In the two states that wait for nothing, nothing is done. -/
theorem continueFrame_other {data : List Byte} {s : State}
    (h : ¬ (s.fst = .awaitingLength ∨ s.fst = .awaitingBody ∨ s.fst = .awaitingMac)) :
    continueFrame data (clearRead s) = clearRead s := by
  unfold continueFrame
  cases hf : s.fst <;> simp_all

/-- The records a byte can latch: a protocol violation with a reason, or an integrity violation. -/
def ByteFailure (f : Failure) : Prop :=
  f = .protocolViolation .lengthOutOfBounds ∨ f = .protocolViolation .paddingTooShort
    ∨ f = .protocolViolation .paddingExceedsPacket ∨ f = .integrityViolation

/-- All that `Continue(data)` can do in one of the three waiting states (R132), `s` being the state with
the read still in its registers. -/
theorem continueFrame_cases (data : List Byte) (s : State)
    (hf : s.fst = .awaitingLength ∨ s.fst = .awaitingBody ∨ s.fst = .awaitingMac) :
    (∃ cs f, (s.lCfg.cipherActive = false → cs = s.cs) ∧ ByteFailure f ∧
        continueFrame data (clearRead s) = State.deadWith { s with cs := cs } .decodeFrame (failureRecord f))
      ∨ (∃ cs p, (s.lCfg.cipherActive = false → cs = s.cs) ∧
        continueFrame data (clearRead s) = State.committedWith { s with cs := cs } p)
      ∨ (s.fst = .awaitingLength ∧ ∃ cs lenf, (s.lCfg.cipherActive = false → cs = s.cs)
        ∧ lengthInBounds s.lCfg (be32 lenf) = true ∧ be32 lenf ≠ 0 ∧
        continueFrame data (clearRead s) = State.readingWith { s with
          cs := cs, fst := .awaitingBody, lenf := lenf, pktLen := be32 lenf } (be32 lenf))
      ∨ (s.fst = .awaitingBody ∧ s.lCfg.macActive = true ∧ s.lCfg.macLength ≠ 0
        ∧ paddingFault (s.plain data) s.pktLen = none ∧ ∃ cs, (s.lCfg.cipherActive = false → cs = s.cs) ∧
        continueFrame data (clearRead s) = State.readingWith { s with
          cs := cs, fst := .awaitingMac, body := s.plain data, padLen := (s.plain data).headD 0 } s.lCfg.macLength) := by
  have hcs : s.lCfg.cipherActive = false → s.csAfter data = s.cs := by
    intro h; simp [State.csAfter, h]
  have hcs2 : s.lCfg.cipherActive = false →
      State.csAfter { s with cs := s.csAfter data } [] = s.cs := by
    intro h; simp [State.csAfter, h]
  rcases hf with hf | hf | hf
  · rw [continueFrame_length hf]
    by_cases hb : lengthInBounds s.lCfg (be32 (bytes4OfList (s.plain data))) = true
    · by_cases h0 : be32 (bytes4OfList (s.plain data)) = 0
      · exact .inl ⟨_, _, hcs2, .inr (.inr (.inl rfl)), lengthStage_empty hb h0⟩
      · exact .inr (.inr (.inl ⟨hf, _, _, hcs, hb, h0, lengthStage_startsBody hb h0⟩))
    · exact .inl ⟨_, _, hcs, .inl rfl, lengthStage_outOfBounds (by simpa using hb)⟩
  · rw [continueFrame_body hf]
    cases hp : paddingFault (s.plain data) s.pktLen with
    | some f =>
      refine .inl ⟨_, f, hcs, ?_, bodyStage_bad hp⟩
      rcases paddingFault_some hp with h | h <;> simp [ByteFailure, h]
    | none =>
      by_cases hm : s.lCfg.macActive = true
      · by_cases hl : s.lCfg.macLength = 0
        · rw [bodyStage_emptyMac hp hm hl]
          split
          · exact .inr (.inl ⟨_, _, hcs, rfl⟩)
          · exact .inl ⟨_, _, hcs, .inr (.inr (.inr rfl)), rfl⟩
        · exact .inr (.inr (.inr ⟨hf, hm, hl, rfl, _, hcs, bodyStage_startsMac hp hm hl⟩))
      · exact .inr (.inl ⟨_, _, hcs, bodyStage_commits hp (by simpa using hm)⟩)
  · rw [continueFrame_mac hf, macStage_clearRead]
    split
    · exact .inr (.inl ⟨s.cs, _, fun _ => rfl, rfl⟩)
    · exact .inl ⟨s.cs, _, fun _ => rfl, .inr (.inr (.inr rfl)), rfl⟩

/-- All that one consumed byte can do from a state that meets the invariants (R104, R107, R146): it is
collected; or it completes a direct read; or it completes a read of a frame, which fails, commits, goes
on to the body or goes on to the MAC. -/
theorem takeByte_cases (b : Byte) {s : State} (hI : Inv s) (hr : s.tReady = true) :
    (s.rdK + 1 ≠ s.rdN ∧
        takeByte b s = { s with abuf := s.abuf ++ [b], rdK := s.rdK + 1, cur := s.cur + 1 })
      ∨ (s.rdK + 1 = s.rdN ∧ s.cmd = .readExact ∧
        takeByte b s = { s with
          cmd := .none, rdActive := false, rdN := 0, rdK := 0, abuf := [], cur := s.cur + 1, responses := s.responses ++ [⟨.readExact s.rdN, .ok (s.abuf ++ [b])⟩] })
      ∨ (s.rdK + 1 = s.rdN ∧ s.cmd = .decodeFrame ∧
        ((∃ cs f, (s.lCfg.cipherActive = false → cs = s.cs) ∧ ByteFailure f ∧
            takeByte b s = State.deadWith { s with cs := cs, cur := s.cur + 1 } .decodeFrame (failureRecord f))
          ∨ (∃ cs p, (s.lCfg.cipherActive = false → cs = s.cs) ∧
            takeByte b s = State.committedWith { s with cs := cs, cur := s.cur + 1 } p)
          ∨ (s.fst = .awaitingLength ∧ ∃ cs lenf, (s.lCfg.cipherActive = false → cs = s.cs)
            ∧ lengthInBounds s.lCfg (be32 lenf) = true ∧ be32 lenf ≠ 0 ∧
            takeByte b s = State.readingWith { s with
              cs := cs, cur := s.cur + 1, fst := .awaitingBody, lenf := lenf, pktLen := be32 lenf } (be32 lenf))
          ∨ (s.fst = .awaitingBody ∧ s.lCfg.macActive = true ∧ s.lCfg.macLength ≠ 0
            ∧ paddingFault (s.plain (s.abuf ++ [b])) s.pktLen = none
            ∧ ∃ cs, (s.lCfg.cipherActive = false → cs = s.cs) ∧
            takeByte b s = State.readingWith { s with
              cs := cs, cur := s.cur + 1, fst := .awaitingMac, body := s.plain (s.abuf ++ [b]), padLen := (s.plain (s.abuf ++ [b])).headD 0 }
              s.lCfg.macLength))) := by
  by_cases hl : s.rdK + 1 = s.rdN
  · have hn : s.cmd ≠ .none := (hI.outstanding ((tReady_iff s).1 hr).1).2.2
    by_cases hc : s.cmd = .readExact
    · exact .inr (.inl ⟨hl, hc, takeByte_completes_direct hl hc⟩)
    · have hd : s.cmd = .decodeFrame := by
        revert hn hc; cases s.cmd <;> simp
      refine .inr (.inr ⟨hl, hd, ?_⟩)
      rw [takeByte_completes_frame hl hc]
      exact continueFrame_cases (s.abuf ++ [b]) { s with cur := s.cur + 1 } (hI.frameStage hd)
  · exact .inl ⟨hl, takeByte_collects hl⟩

/-! ### What a transport event leaves -/

/-- `t` differs from `s` in no part of the state that a transport event must leave: the sampled
configuration, the outside's side, the parameters, the record of a direction that lives on, the cipher
state of a read with no cipher, and the earlier responses. -/
def LeavesTheRest (s t : State) : Prop :=
  t.lCfg = s.lCfg ∧ t.cfg = s.cfg ∧ t.script = s.script ∧ t.bufCap = s.bufCap ∧ t.csInit = s.csInit
    ∧ (t.fst ≠ .failed → t.err = s.err)
    ∧ (s.lCfg.cipherActive = false ∨ s.cmd = .readExact → t.cs = s.cs)
    ∧ ∃ r, t.responses = s.responses ++ r

theorem leavesTheRest_refl (s : State) : LeavesTheRest s s := by simp [LeavesTheRest]

theorem takeByte_leaves (b : Byte) (s : State) : LeavesTheRest s (takeByte b s) := by
  by_cases hl : s.rdK + 1 = s.rdN
  · by_cases hc : s.cmd = .readExact
    · rw [takeByte_completes_direct hl hc]; simp [LeavesTheRest]
    · rw [takeByte_completes_frame hl hc]
      by_cases hf : s.fst = .awaitingLength ∨ s.fst = .awaitingBody ∨ s.fst = .awaitingMac
      · rcases continueFrame_cases (s.abuf ++ [b]) { s with cur := s.cur + 1 } hf with
            ⟨_, _, _, _, h⟩ | ⟨_, _, _, h⟩ | ⟨_, _, _, _, _, _, h⟩ | ⟨_, _, _, _, _, _, h⟩ <;> rw [h] <;>
          simp_all [LeavesTheRest, State.deadWith, State.committedWith, State.readingWith]
      · rw [continueFrame_other (s := { s with cur := s.cur + 1 }) hf]
        simp [LeavesTheRest]
  · rw [takeByte_collects hl]; simp [LeavesTheRest]

theorem takeFailure_leaves (f : Failure) (s : State) : LeavesTheRest s (takeFailure f s) := by
  rw [takeFailure_eq]
  rcases loseCipher_cases s with h | ⟨a, -, c, -, h⟩
  · rw [h]; simp [LeavesTheRest, State.deadWith]
  · rw [h]; simp [LeavesTheRest, State.deadWith, a, c]

/-- A byte is counted, whatever it does (R104, R51). -/
theorem takeByte_cur (b : Byte) (s : State) : (takeByte b s).cur = s.cur + 1 := by
  by_cases hl : s.rdK + 1 = s.rdN
  · by_cases hc : s.cmd = .readExact
    · rw [takeByte_completes_direct hl hc]
    · rw [takeByte_completes_frame hl hc]
      by_cases hf : s.fst = .awaitingLength ∨ s.fst = .awaitingBody ∨ s.fst = .awaitingMac
      · rcases continueFrame_cases (s.abuf ++ [b]) { s with cur := s.cur + 1 } hf with
            ⟨_, _, _, _, h⟩ | ⟨_, _, _, h⟩ | ⟨_, _, _, _, _, _, h⟩ | ⟨_, _, _, _, _, _, h⟩ <;> rw [h] <;> rfl
      · rw [continueFrame_other (s := { s with cur := s.cur + 1 }) hf]; rfl
  · rw [takeByte_collects hl]

/-- The last byte of a frame's read, as `exec`. -/
theorem exec_lastByte {b : Byte} {s : State} (h : s.AtLastByte) (hc : s.cmd = .decodeFrame) :
    exec (.tByte b) s
      = .next (continueFrame (s.abuf ++ [b]) (clearRead { s with cur := s.cur + 1 })) := by
  simp only [exec, execTByte, h.1, if_true]
  rw [takeByte_completes_frame h.2 (by simp [hc])]

/-- The bounds check (R134), on numbers. -/
theorem lengthInBounds_toNat (c : Cfg) (len : Word) :
    lengthInBounds c len = true ↔
      c.minFrameSize.toNat ≤ len.toNat ∧ len.toNat ≤ c.maxFrameSize.toNat := by
  simp [lengthInBounds, BitVec.le_def]

/-- Where losing the cipher state changes nothing (R136, R171). -/
theorem loseCipher_of_not {s : State}
    (h : s.cmd ≠ .decodeFrame ∨ s.fst ≠ .awaitingBody ∨ s.lCfg.cipherActive = false ∨ s.rdK = 0) :
    loseCipher s = s := by
  rcases loseCipher_cases s with h' | ⟨a, b, c, d, -⟩
  · exact h'
  · simp_all

end Sys2Proof.Machine
end

