-- ==== Sys2Proof/Laws/Invariant.lean ====
section
/-! SUPPORT. The invariants of R45 are kept by each of the states an operation ends in, by one byte, by a
transport failure, by what is offered and by reset. -/

namespace Sys2Proof.Machine

/-- The part of the invariants that says a failure record's fields belong to its code. -/
def RecordOk (r : FailureRecord) : Prop :=
  (r.code = .none → r = FailureRecord.clear)
    ∧ (r.code ≠ .transportError → r.kind = 0)
    ∧ (r.code = .protocolViolation ↔ r.reason ≠ .none)
    ∧ (r.code ≠ .shortRead → r.expected = 0 ∧ r.actual = 0)
    ∧ (r.code = .shortRead → r.actual < r.expected)

/-- A dead state meets the invariants if its record is one of a failure. -/
theorem deadWith_inv {r : FailureRecord} (s : State) (c : Command) (hn : r.code ≠ .none) (hr : RecordOk r) :
    Inv (s.deadWith c r) := by
  constructor <;> simp_all [State.deadWith, FrameClear]
  exact hr.2

theorem recordOk_protocol {r : Reason} (h : r ≠ .none) : RecordOk (failureRecord (.protocolViolation r)) := by
  simp [RecordOk, failureRecord, h]

theorem recordOk_integrity : RecordOk (failureRecord .integrityViolation) := by
  simp [RecordOk, failureRecord]

theorem recordOk_transport (k : BitVec 2) : RecordOk (failureRecord (.transportError k)) := by
  simp [RecordOk, failureRecord]

theorem recordOk_shortRead {e a : Word} (h : a < e) : RecordOk (failureRecord (.shortRead e a)) := by
  simp [RecordOk, failureRecord, h]

theorem failureRecord_code_ne_none (f : Failure) : (failureRecord f).code ≠ .none := by
  cases f <;> simp [failureRecord]

theorem byteFailure_recordOk {f : Failure} (h : ByteFailure f) : RecordOk (failureRecord f) := by
  rcases h with h | h | h | h <;> subst h
  · exact recordOk_protocol (by simp)
  · exact recordOk_protocol (by simp)
  · exact recordOk_protocol (by simp)
  · exact recordOk_integrity

/-- A state whose failure record is clear and whose direction is not dead: what the idle and the waiting
states share. -/
theorem err_clear_of_alive {s : State} (hI : Inv s) (h : s.fst ≠ .failed) : s.err = FailureRecord.clear := by
  apply hI.record.1
  by_contra hc
  exact h (hI.failedIff.2 hc)

/-- An idle state with a clear record meets the invariants. -/
theorem idle_inv {s : State} (h1 : s.cmd = .none) (h2 : s.fst = .awaitingLength) (h3 : s.rdActive = false)
    (h4 : s.rdN = 0) (h5 : s.rdK = 0) (h6 : s.abuf = []) (h7 : FrameClear s) (h8 : s.err = FailureRecord.clear) :
    Inv s := by
  constructor <;> simp_all [FailureRecord.clear]

theorem committedWith_inv {s : State} (p : List Byte) (h : s.err = FailureRecord.clear) :
    Inv (s.committedWith p) := by
  apply idle_inv <;> simp_all [State.committedWith, FrameClear]

/-- A direct read that has just started meets the invariants. -/
theorem directRead_inv {s : State} {n : Word} (h0 : n ≠ 0) (hn : n.toNat ≤ s.bufCap)
    (hf : s.fst = .awaitingLength) (hc : FrameClear s) (he : s.err = FailureRecord.clear) :
    Inv (State.readingWith { s with cmd := .readExact } n) := by
  have hp : 1 ≤ n ∧ 0 < n := by
    refine ⟨?_, ?_⟩ <;> bv_omega
  constructor <;> simp_all [State.readingWith, FrameClear, FailureRecord.clear]

/-- The length read of a frame that has just started meets the invariants. -/
theorem lengthRead_inv {s : State} {c : Cfg} (hw : cfgWellFormed s.bufCap c = true)
    (hf : s.fst = .awaitingLength) (hc : FrameClear s) (he : s.err = FailureRecord.clear) :
    Inv (State.readingWith { s with cmd := .decodeFrame, lCfg := c } 4) := by
  constructor <;> simp_all [State.readingWith, FrameClear, FailureRecord.clear]

theorem plain_length (s : State) (l : List Byte) : (s.plain l).length = l.length := by
  unfold State.plain
  split <;> simp [decrypt]

theorem lengthInBounds_iff (c : Cfg) (len : Word) :
    lengthInBounds c len = true ↔ c.minFrameSize ≤ len ∧ len ≤ c.maxFrameSize := by
  simp [lengthInBounds]

theorem cfgWellFormed_iff (cap : Nat) (c : Cfg) :
    cfgWellFormed cap c = true ↔
      c.maxFrameSize.toNat ≤ cap ∧ (c.macActive = true → c.macLength.toNat ≤ cap) := by
  cases h : c.macActive <;> simp [cfgWellFormed, h]

/-- The body read that a good length starts meets the invariants. -/
theorem bodyRead_inv {s : State} {cs : CipherState} {lenf : Bytes4} (hI : Inv s) (hc : s.cmd = .decodeFrame)
    (hf : s.fst = .awaitingLength) (hb : lengthInBounds s.lCfg (be32 lenf) = true) (h0 : be32 lenf ≠ 0) (n : Nat) :
    Inv (State.readingWith { s with cs := cs, cur := n, fst := .awaitingBody, lenf := lenf,
                                    pktLen := be32 lenf } (be32 lenf)) := by
  have hw := hI.frameConfig hc
  have he := err_clear_of_alive hI (by simp [hf])
  have hclr := (hI.lengthRead hc hf).2
  have hb' := (lengthInBounds_iff _ _).1 hb
  have hp : 1 ≤ be32 lenf ∧ 0 < be32 lenf := by
    refine ⟨?_, ?_⟩ <;> bv_omega
  constructor <;> simp_all [State.readingWith, FrameClear, FailureRecord.clear]

/-- The MAC read that a good body starts meets the invariants. -/
theorem macRead_inv {s : State} {cs : CipherState} {body : List Byte} (hI : Inv s) (hc : s.cmd = .decodeFrame)
    (hf : s.fst = .awaitingBody) (hm : s.lCfg.macActive = true) (hl : s.lCfg.macLength ≠ 0)
    (hlen : body.length = s.pktLen.toNat) (hp : paddingFault body s.pktLen = none) (n : Nat) :
    Inv (State.readingWith { s with cs := cs, cur := n, fst := .awaitingMac, body := body,
                                    padLen := body.headD 0 } s.lCfg.macLength) := by
  obtain ⟨-, hbe, -, hmax, -, -, -⟩ := hI.bodyRead hc hf
  obtain ⟨h0, h4, h1⟩ := paddingFault_none.1 hp
  have hpos : 1 ≤ s.lCfg.macLength ∧ 0 < s.lCfg.macLength := by
    refine ⟨?_, ?_⟩ <;> bv_omega
  have hhead : body.head? = some (body.headD 0) := by
    cases body with
    | nil => simp at h4
    | cons p r => rfl
  have hcmd : s.cmd ≠ .none := by simp [hc]
  have hfail : s.fst ≠ .failed := by simp [hf]
  exact { collected := rfl
          outstanding := fun _ => ⟨hpos.1, hpos.2, hcmd⟩
          noRead := fun h => by simp [State.readingWith] at h
          commandWaits := fun _ => rfl
          directRead := fun h => absurd (hc.symm.trans h) (by simp)
          frameStage := fun _ => .inr (.inr rfl)
          frameConfig := fun _ => hI.frameConfig hc
          lengthRead := fun _ h => by simp [State.readingWith] at h
          bodyRead := fun _ h => by simp [State.readingWith] at h
          macRead := fun _ _ => ⟨hm, rfl, hbe, hmax, hlen, hhead, h4, h1⟩
          notDone := by simp [State.readingWith]
          failedIff := by simp [State.readingWith, err_clear_of_alive hI hfail, FailureRecord.clear]
          failedClear := fun h => by simp [State.readingWith] at h
          idle := fun h => absurd h hcmd
          record := hI.record }

/-- One consumed byte keeps the invariants. -/
theorem takeByte_inv (b : Byte) {s : State} (hI : Inv s) (hr : s.tReady = true) : Inv (takeByte b s) := by
  have halive : s.fst ≠ .failed := by
    intro hf
    exact (hI.outstanding ((tReady_iff s).1 hr).1).2.2 (hI.failedClear hf).1
  have he := err_clear_of_alive hI halive
  have hsucc := rdK_succ_toNat hr
  rcases takeByte_cases b hI hr with ⟨hne, h⟩ | ⟨-, hc, h⟩ | ⟨hl, hc, h⟩
  · rw [h]
    have hlt := rdK_succ_lt hr hne
    have hact := ((tReady_iff s).1 hr).1
    obtain ⟨h1, h2, h3⟩ := hI.outstanding hact
    exact { collected := by rw [List.length_append, hI.collected]; exact hsucc.symm
            outstanding := fun _ => ⟨h1, hlt, h3⟩
            noRead := fun hf => by simp [hact] at hf
            commandWaits := hI.commandWaits
            directRead := hI.directRead
            frameStage := hI.frameStage
            frameConfig := hI.frameConfig
            lengthRead := hI.lengthRead
            bodyRead := hI.bodyRead
            macRead := hI.macRead
            notDone := hI.notDone
            failedIff := hI.failedIff
            failedClear := hI.failedClear
            idle := hI.idle
            record := hI.record }
  · rw [h]
    obtain ⟨hf, hclr, -⟩ := hI.directRead hc
    apply idle_inv <;> simp_all [FrameClear]
  · rcases h with ⟨cs, f, -, hbf, h⟩ | ⟨cs, p, -, h⟩ | ⟨hf, cs, lenf, -, hb, h0, h⟩ | ⟨hf, hm, hz, hp, cs, -, h⟩
    · rw [h]
      exact deadWith_inv _ _ (failureRecord_code_ne_none f) (byteFailure_recordOk hbf)
    · rw [h]
      exact committedWith_inv p he
    · rw [h]
      exact bodyRead_inv hI hc hf hb h0 _
    · rw [h]
      refine macRead_inv hI hc hf hm hz ?_ hp _
      have hb := hI.bodyRead hc hf
      rw [plain_length, List.length_append, hI.collected, ← hb.1, ← hl, hsucc]
      rfl

theorem takeFailure_inv {f : Failure} (s : State) (hr : RecordOk (failureRecord f)) : Inv (takeFailure f s) := by
  rw [takeFailure_eq]
  exact deadWith_inv _ _ (failureRecord_code_ne_none f) hr

/-- What only the outside's side of the state changes cannot break an invariant. -/
theorem outside_inv {s : State} (hI : Inv s) (r : List Answer) (l : List Line) (c : Cfg) (n : Word) :
    Inv { s with responses := r, script := l, cfg := c, seq := n } :=
  { collected := hI.collected, outstanding := hI.outstanding, noRead := hI.noRead,
    commandWaits := hI.commandWaits, directRead := hI.directRead, frameStage := hI.frameStage,
    frameConfig := hI.frameConfig, lengthRead := hI.lengthRead, bodyRead := hI.bodyRead,
    macRead := hI.macRead, notDone := hI.notDone, failedIff := hI.failedIff,
    failedClear := hI.failedClear, idle := hI.idle, record := hI.record }

theorem respond_inv {s : State} (c : Command) (r : Response) (hI : Inv s) : Inv (respond c r s) :=
  outside_inv hI _ s.script s.cfg s.seq

theorem seqNext_inv {s : State} (hI : Inv s) : Inv (seqNext s).2 :=
  outside_inv hI s.responses s.script s.cfg _

theorem atStep_inv {s : State} (t : Taken) (hI : Inv s) : Inv (s.atStep t) :=
  outside_inv hI s.responses t.offered t.inputs s.seq

theorem offerBytes_inv {s : State} (bs : List Byte) (hI : Inv s) : Inv (offerBytes bs s) :=
  outside_inv hI s.responses _ s.cfg s.seq

theorem setScript_inv {s : State} (l : List Line) (hI : Inv s) : Inv { s with script := l } :=
  outside_inv hI s.responses l s.cfg s.seq

theorem resetStep_inv (s : State) : Inv (resetStep s) := by
  apply idle_inv <;> simp [FrameClear]

end Sys2Proof.Machine
end

