-- ==== Sys2Proof/Laws/Operands.lean ====
section
/-! SUPPORT. What the operand forms give: the payload inside a body, the sender's cipher, and the parts of
a frame's wire bytes. -/

namespace Sys2Proof.Machine

/-- The bytes of a body between its padding-length byte and its padding are the frame's payload (R140). -/
theorem payload_slice {f : WireFrame} (h : f.wf = true) :
    slice (frameBody f) 1 (f.packetLength.toNat - f.paddingLength.toNat) = f.payload := by
  obtain ⟨h1, h2, -⟩ := (wireFrame_wf_iff f).1 h
  rw [show f.packetLength.toNat - f.paddingLength.toNat = f.payload.length + 1 by omega]
  simp [slice, frameBody]

/-! ### The sender's cipher (R151) -/

theorem mem_byteLists (n : Nat) (l : List Byte) : l ∈ byteLists n ↔ l.length = n := by
  induction n generalizing l with
  | zero => simp [byteLists]
  | succ n ih =>
    simp only [byteLists, List.mem_flatMap, List.mem_map, List.mem_range, ih]
    constructor
    · rintro ⟨m, hm, v, -, rfl⟩; simp [hm]
    · intro h
      cases l with
      | nil => simp at h
      | cons b m => exact ⟨m, by simpa using h, b.toNat, b.isLt, by simp⟩

theorem decrypt_length (cs : CipherState) (x : List Byte) : (decrypt cs x).2.length = x.length := by
  simp [decrypt]

theorem decryptFrame_length (cs : CipherState) (x : List Byte) : (decryptFrame cs x).2.length = x.length := by
  simp [decryptFrame, decrypt]; omega

/-- `Encrypt` preserves length, and the framer's two `Decrypt` calls undo it wherever anything is undone to
`x` by them. -/
theorem encrypt_spec (cs : CipherState) (x : List Byte) :
    (encrypt cs x).length = x.length ∧
      (Encryptable cs x → (decryptFrame cs (encrypt cs x)).2 = x) := by
  unfold encrypt
  by_cases hf : (decryptFrame cs (x.mapIdx fun i _ => Config.freeWireByte cs x i)).2 = x
  · simp only [hf, if_true]
    exact ⟨by simp, fun _ => trivial⟩
  · simp only [hf, if_false]
    cases h : (byteLists x.length).find? fun y => decide ((decryptFrame cs y).2 = x) with
    | some y =>
      have hy := List.find?_some h
      exact ⟨(mem_byteLists _ _).1 (List.mem_of_find?_eq_some h), fun _ => by simpa using hy⟩
    | none =>
      refine ⟨by simp, ?_⟩
      rintro ⟨y, hl, hy⟩
      exact absurd hy (by simpa using List.find?_eq_none.1 h y ((mem_byteLists _ _).2 hl))

/-! ### The reference encoder (R151) -/

theorem encipher_length (c : Cfg) (cs : CipherState) (x : List Byte) : (encipher c cs x).length = x.length := by
  unfold encipher
  split
  · exact (encrypt_spec cs x).1
  · rfl

theorem encodeWire_eq_frameWire {c : Cfg} (h : c.cipherActive = false) (cs : CipherState) (f : WireFrame) :
    frameWire c cs f = encodeWire f := by
  simp [frameWire, encipher, encodeWire, frameBody, h]

/-- The wire bytes of a well-formed frame are four length bytes, `packet_length` body bytes and the MAC
(R77, R151), whatever the cipher; with none the first two are the length field and the body themselves,
and under one they decrypt to these where any bytes do. -/
theorem frameWire_parts {f : WireFrame} (h : f.wf = true) (c : Cfg) (cs : CipherState) :
    ∃ a b, a.length = 4 ∧ b.length = f.packetLength.toNat ∧ frameWire c cs f = a ++ (b ++ f.mac)
      ∧ (c.cipherActive = false → a = bytes4List (be32bytes f.packetLength) ∧ b = frameBody f)
      ∧ (c.cipherActive = true → Encryptable cs (bytes4List (be32bytes f.packetLength) ++ frameBody f) →
          (decrypt cs a).2 = bytes4List (be32bytes f.packetLength)
            ∧ (decrypt (decrypt cs a).1 b).2 = frameBody f) := by
  obtain ⟨h1, h2, -⟩ := (wireFrame_wf_iff f).1 h
  have hb : (frameBody f).length = f.packetLength.toNat := by simp [frameBody]; omega
  have h4 : (bytes4List (be32bytes f.packetLength)).length = 4 := rfl
  have hl : (encipher c cs (bytes4List (be32bytes f.packetLength) ++ frameBody f)).length
      = 4 + f.packetLength.toNat := by rw [encipher_length]; simp [hb, h4]
  refine ⟨(encipher c cs (bytes4List (be32bytes f.packetLength) ++ frameBody f)).take 4,
    (encipher c cs (bytes4List (be32bytes f.packetLength) ++ frameBody f)).drop 4,
    by simp [hl], by simp [hl], ?_, ?_, ?_⟩
  · rw [← List.append_assoc, List.take_append_drop]; rfl
  · intro hc
    simp only [encipher, hc, Bool.false_eq_true, if_false]
    exact ⟨List.take_left' h4, List.drop_left' h4⟩
  · intro hc he
    simp only [encipher, hc, if_true]
    have := (encrypt_spec cs _).2 he
    simp only [decryptFrame] at this
    have hl4 : (decrypt cs ((encrypt cs (bytes4List (be32bytes f.packetLength) ++ frameBody f)).take 4)).2.length = 4 := by
      rw [decrypt_length, List.length_take, (encrypt_spec cs _).1]; simp [h4]
    exact List.append_inj this (hl4.trans h4.symm)

end Sys2Proof.Machine
end

