-- ==== Sys2Proof/Laws/Step.lean ====
section
/-! SUPPORT. What `takeLine` and `step` can do: which line is taken, that a step is one of three kinds, what
FRAME comes to, and the inversion of a step. -/

namespace Sys2Proof.Machine

/-! ### FRAME -/

/-- FRAME always offers some byte: the length field's first. -/
theorem frameBytes_cons (s : State) (f : WireFrame) : ∃ b bs, s.frameBytes f = b :: bs := by
  have h : 0 < (s.frameBytes f).length := by
    unfold State.frameBytes
    cases s.cmd <;> simp [encodeWire, frameWire, encipher_length, frameBody, bytes4List]
  exact List.exists_cons_of_length_pos h

/-- While a read is outstanding FRAME is the `T_BYTE` of its first byte, the others offered next (R88). -/
theorem execFrame_eq {s : State} {f : WireFrame} {b : Byte} {bs : List Byte} (hr : s.tReady = true)
    (hf : s.frameBytes f = b :: bs) : execFrame f s = .next (takeByte b (offerBytes bs s)) := by
  unfold execFrame
  rw [if_pos hr, hf]
  exact congrArg _ (if_pos hr)

/-- Where none is, it changes nothing (R52). -/
theorem execFrame_blocked {s : State} (f : WireFrame) (hr : s.tReady = false) : execFrame f s = .next s := by
  simp [execFrame, hr]

/-! ### Which line is taken -/

theorem lineStep_command {s : State} (c : BitVec 33) (h : s.cmdReady = true) :
    lineStep s (.command c) = some (.command c, []) :=
  if_pos h

theorem lineStep_event {s : State} (t : BitVec 10) (h : s.tReady = true) :
    lineStep s (.event t) = some (.event t, []) :=
  if_pos h

theorem lineStep_frame {s : State} {f : WireFrame} {b : Byte} {bs : List Byte} (h : s.tReady = true)
    (hf : s.frameBytes f = b :: bs) : lineStep s (.frame f) = some (.event (byteEvent b), byteLines bs) := by
  simp [lineStep, h, hf]

/-- A line is a step only where its kind is enabled (R12, R52, R190). -/
theorem lineStep_ready {s : State} {l : Line} {k : StepKind} {left : List Line}
    (h : lineStep s l = some (k, left)) :
    k = .reset ∨ (∃ c, k = .command c ∧ s.cmdReady = true) ∨ ∃ e, k = .event e ∧ s.tReady = true := by
  unfold lineStep at h
  cases l with
  | reset => cases h; exact .inl rfl
  | config c => cases h
  | command c =>
    simp only at h
    split at h
    · next hr => cases h; exact .inr (.inl ⟨c, rfl, hr⟩)
    · cases h
  | event e =>
    simp only at h
    split at h
    · next hr => cases h; exact .inr (.inr ⟨e, rfl, hr⟩)
    · cases h
  | frame f =>
    simp only at h
    split at h
    · next hr =>
      split at h
      · cases h
      · cases h; exact .inr (.inr ⟨_, rfl, hr⟩)
    · cases h

/-- The first line that is a step is taken; the CFG lines before it have taken effect (R87), and the blocked
ones stay (R52, R196). -/
theorem takeLine_append {s : State} {pre : List Line} (h : ∀ l ∈ pre, lineStep s l = none) {l : Line}
    {k : StepKind} {left : List Line} (hl : lineStep s l = some (k, left)) (c : Cfg) (rest : List Line) :
    takeLine s c (pre ++ l :: rest)
      = some { kind := k, inputs := inputsAfter pre c, offered := stillOffered pre ++ (left ++ rest) } := by
  induction pre generalizing c with
  | nil => simp [takeLine, hl, inputsAfter, stillOffered]
  | cons m pre ih =>
    simp only [List.cons_append, takeLine, h m (by simp), ih (fun k hk => h k (by simp [hk])),
      inputsAfter, stillOffered, List.foldl_cons, List.filter_cons]
    split <;> simp

/-- Nothing is taken exactly where no line is a step now. -/
theorem takeLine_none_iff {s : State} {c : Cfg} {ls : List Line} :
    takeLine s c ls = none ↔ ∀ l ∈ ls, lineStep s l = none := by
  induction ls generalizing c with
  | nil => simp [takeLine]
  | cons m ls ih =>
    cases hm : lineStep s m with
    | some p => simp [takeLine, hm]
    | none =>
      rw [List.forall_mem_cons, ← ih (c := lineInputs m c)]
      cases hs : takeLine s (lineInputs m c) ls <;> simp [takeLine, hm, hs]

/-- What is taken is a line that is offered and is a step now: the inversion of `takeLine`. -/
theorem takeLine_some {s : State} {c : Cfg} {ls : List Line} {t : Taken} (h : takeLine s c ls = some t) :
    ∃ l ∈ ls, ∃ left, lineStep s l = some (t.kind, left) := by
  induction ls generalizing c t with
  | nil => cases h
  | cons m ls ih =>
    unfold takeLine at h
    split at h
    · next hm => cases h; exact ⟨m, by simp, _, hm⟩
    · split at h
      · next hs => cases h; obtain ⟨l, hl, h⟩ := ih hs; exact ⟨l, by simp [hl], h⟩
      · cases h

/-- The inputs before the lines reach nothing but the inputs the step finds. -/
theorem takeLine_inputs (s : State) (ls : List Line) :
    (∀ c, takeLine s c ls = none)
      ∨ ∃ k l, (∀ c, takeLine s c ls = some { kind := k, inputs := c, offered := l })
          ∨ ∃ d, ∀ c, takeLine s c ls = some { kind := k, inputs := d, offered := l } := by
  induction ls with
  | nil => exact .inl fun _ => rfl
  | cons m ls ih =>
    cases hm : lineStep s m with
    | some p => exact .inr ⟨p.1, p.2 ++ ls, .inl fun c => by simp [takeLine, hm]⟩
    | none =>
      rcases ih with h | ⟨k, l, h | ⟨d, h⟩⟩
      · exact .inl fun c => by simp [takeLine, hm, h]
      · refine .inr ⟨k, if lineStays m then m :: l else l, ?_⟩
        cases m with
        | config d => exact .inr ⟨d, fun c => by simp [takeLine, hm, h, lineInputs]⟩
        | reset => exact .inl fun c => by simp [takeLine, hm, h, lineInputs]
        | command w => exact .inl fun c => by simp [takeLine, hm, h, lineInputs]
        | event e => exact .inl fun c => by simp [takeLine, hm, h, lineInputs]
        | frame f => exact .inl fun c => by simp [takeLine, hm, h, lineInputs]
      · exact .inr ⟨k, if lineStays m then m :: l else l, .inr ⟨d, fun c => by simp [takeLine, hm, h]⟩⟩

/-- Of a state `takeLine` sees only which lines are steps. -/
theorem takeLine_congr {s s' : State} (h : ∀ l, lineStep s l = lineStep s' l) (c : Cfg) (ls : List Line) :
    takeLine s c ls = takeLine s' c ls := by
  induction ls generalizing c with
  | nil => rfl
  | cons m ls ih => simp [takeLine, h, ih]

/-! ### The step -/

theorem step_takes {s : State} {pre rest left : List Line} {l : Line} {k : StepKind}
    (h : ∀ l ∈ pre, lineStep s l = none) (hl : lineStep s l = some (k, left))
    (hs : s.script = pre ++ l :: rest) :
    step s = runKind k { s with cfg := inputsAfter pre s.cfg, script := stillOffered pre ++ (left ++ rest) } := by
  unfold step
  rw [hs, takeLine_append h hl]
  rfl

/-- All that a step can do: none, where nothing can be taken; a reset; a command that is accepted; an event
that is consumed (R7). -/
theorem step_cases {s t : State} (h : step s = .next t) :
    (takeLine s s.cfg s.script = none ∧ t = s)
      ∨ ∃ u : Taken, takeLine s s.cfg s.script = some u
          ∧ ((u.kind = .reset ∧ t = resetStep (s.atStep u))
            ∨ (∃ c, u.kind = .command c ∧ s.cmdReady = true ∧ exec (decodeCommand c) (s.atStep u) = .next t)
            ∨ ∃ e, u.kind = .event e ∧ s.tReady = true ∧ exec (decodeEvent e) (s.atStep u) = .next t) := by
  unfold step at h
  split at h
  · next hn => injection h with h; exact .inl ⟨hn, h.symm⟩
  · next u hu =>
    obtain ⟨l, -, left, hl⟩ := takeLine_some hu
    refine .inr ⟨u, hu, ?_⟩
    rcases lineStep_ready hl with hk | ⟨c, hk, hr⟩ | ⟨e, hk, hr⟩ <;> rw [hk] at h
    · injection h with h; exact .inl ⟨hk, h.symm⟩
    · exact .inr (.inl ⟨c, hk, hr, h⟩)
    · exact .inr (.inr ⟨e, hk, hr, h⟩)

/-- The operation a command word selects. -/
theorem decodeCommand_cases (c : BitVec 33) :
    (∃ n, decodeCommand c = .readExact n) ∨ decodeCommand c = .decodeFrame := by
  unfold decodeCommand
  split
  · exact .inr rfl
  · exact .inl ⟨_, rfl⟩

/-- The operation an event word selects. -/
theorem decodeEvent_cases (e : BitVec 10) :
    (∃ b, decodeEvent e = .tByte b) ∨ decodeEvent e = .tEos ∨ (∃ k, decodeEvent e = .tErr k)
      ∨ decodeEvent e = .tErrReserved := by
  unfold decodeEvent
  split
  · exact .inl ⟨_, rfl⟩
  · split
    · exact .inr (.inl rfl)
    · split
      · exact .inr (.inr (.inl ⟨_, rfl⟩))
      · exact .inr (.inr (.inr rfl))

end Sys2Proof.Machine
end

