-- ==== Sys2Proof/Laws/Progress.lean ====
section
/-! SUPPORT. How a byte, a FRAME and a transport failure move a command on: it goes on with nothing
answered, or it ends with one answer. -/

namespace Sys2Proof.Machine

/-- From `s` with a read outstanding the command in progress goes on to `t`: nothing answered. -/
def GoesOn (s t : State) : Prop :=
  (t.cmd = s.cmd ∧ t.command = s.command) ∧ t.tReady = true ∧ t.seq = s.seq ∧ t.responses = s.responses ∧ t.fst ≠ .failed

/-- From `s` with a read outstanding the command in progress ends in `t` with one answer: a direct read,
a committed frame, or a failure, and the answer is to that command. -/
def Ends (s t : State) : Prop :=
  t.cmd = .none ∧ t.tReady = false ∧
    ((s.cmd = .readExact ∧ t.Idle ∧ t.seq = s.seq ∧ ∃ d, t.responses = s.responses ++ [⟨s.command, .ok d⟩])
      ∨ (s.cmd = .decodeFrame ∧ t.Idle ∧ t.seq = s.seq + 1 ∧ ∃ p, t.responses = s.responses ++ [⟨s.command, .ok p⟩])
      ∨ (t.fst = .failed ∧ t.seq = s.seq ∧ ∃ r, t.responses = s.responses ++ [⟨s.command, .fail r⟩]))

theorem command_decodeFrame {s : State} (h : s.cmd = .decodeFrame) : s.command = .decodeFrame := by
  simp [State.command, h]

theorem command_readExact {s : State} (h : s.cmd = .readExact) : s.command = .readExact s.rdN := by
  simp [State.command, h]

theorem deadWith_ends {s u : State} (r : FailureRecord) (h1 : u.seq = s.seq) (h2 : u.responses = s.responses) :
    Ends s (u.deadWith s.command r) :=
  ⟨rfl, rfl, .inr (.inr ⟨rfl, h1, r, by simp [State.deadWith, h2]⟩)⟩

theorem readingWith_goesOn {s u : State} {n : Word} (hn : n ≠ 0) (hd : s.cmd = .decodeFrame) (h1 : u.cmd = s.cmd) (h2 : u.seq = s.seq)
    (h3 : u.responses = s.responses) (h4 : u.fst ≠ .failed) : GoesOn s (u.readingWith n) := by
  refine ⟨⟨h1, ?_⟩, ?_, h2, h3, h4⟩
  · rw [command_decodeFrame hd, command_decodeFrame (s := u.readingWith n) (h1.trans hd)]
  have : 0 < n := by bv_omega
  exact (tReady_iff _).2 ⟨rfl, this⟩

theorem alive_of_tReady {s : State} (hI : Inv s) (hr : s.tReady = true) : s.fst ≠ .failed := fun hf =>
  (hI.outstanding ((tReady_iff s).1 hr).1).2.2 (hI.failedClear hf).1

theorem tReady_of_inv {s : State} (hI : Inv s) (hc : s.cmd ≠ .none) : s.tReady = true :=
  (tReady_iff s).2 ⟨hI.commandWaits hc, (hI.outstanding (hI.commandWaits hc)).2.1⟩

theorem not_tReady_of_inv {s : State} (hI : Inv s) (hc : s.cmd = .none) : s.tReady = false := by
  cases h : s.tReady with
  | false => rfl
  | true => exact absurd hc (hI.outstanding ((tReady_iff s).1 h).1).2.2

theorem takeByte_progress (b : Byte) {s : State} (hI : Inv s) (hr : s.tReady = true) :
    GoesOn s (takeByte b s) ∨ Ends s (takeByte b s) := by
  have halive := alive_of_tReady hI hr
  have hact := ((tReady_iff s).1 hr).1
  rcases takeByte_cases b hI hr with ⟨hne, h⟩ | ⟨-, hc, h⟩ | ⟨-, hc, h⟩
  · refine .inl ?_
    rw [h]
    exact ⟨⟨rfl, rfl⟩, (tReady_iff _).2 ⟨hact, rdK_succ_lt hr hne⟩, rfl, rfl, halive⟩
  · refine .inr ?_
    rw [h]
    exact ⟨rfl, rfl, .inl ⟨hc, ⟨rfl, (hI.directRead hc).1⟩, rfl, s.abuf ++ [b], by rw [command_readExact hc]⟩⟩
  · rcases h with ⟨_, _, _, _, h⟩ | ⟨_, _, _, h⟩ | ⟨_, _, _, _, _, h0, h⟩ | ⟨_, _, h0, _, _, _, h⟩ <;> rw [h]
    · refine .inr ?_
      rw [← command_decodeFrame hc]
      exact deadWith_ends _ rfl rfl
    · exact .inr ⟨rfl, rfl, .inr (.inl ⟨hc, ⟨rfl, rfl⟩, rfl, _, by rw [command_decodeFrame hc]; rfl⟩)⟩
    · exact .inl (readingWith_goesOn h0 hc rfl rfl rfl (by simp))
    · exact .inl (readingWith_goesOn h0 hc rfl rfl rfl (by simp))

theorem takeFailure_ends (f : Failure) (s : State) : Ends s (takeFailure f s) := by
  rw [takeFailure_eq]
  apply deadWith_ends
  · rcases loseCipher_cases s with h | ⟨-, -, -, -, h⟩ <;> rw [h]
  · rcases loseCipher_cases s with h | ⟨-, -, -, -, h⟩ <;> rw [h]

/-- All that an event or a frame can do to a command in progress. -/
theorem transport_progress {i : Instr} {s t : State} (hI : Inv s) (hr : s.tReady = true)
    (hi : (∃ b, i = .tByte b) ∨ i = .tEos ∨ (∃ k, i = .tErr k) ∨ i = .tErrReserved ∨ ∃ f, i = .frame f)
    (h : exec i s = .next t) : GoesOn s t ∨ Ends s t := by
  rcases hi with ⟨b, rfl⟩ | rfl | ⟨k, rfl⟩ | rfl | ⟨f, rfl⟩ <;>
    simp only [exec, execTByte, execTEos, execTErr, execTErrReserved, hr, if_true,
      Host.Outcome.next.injEq] at h
  · subst h; exact takeByte_progress b hI hr
  · subst h; exact .inr (takeFailure_ends _ s)
  · subst h; exact .inr (takeFailure_ends _ s)
  · subst h; exact .inr (takeFailure_ends _ s)
  · obtain ⟨b, bs, hf⟩ := frameBytes_cons s f
    rw [execFrame_eq hr hf] at h
    injection h with h
    subst h
    exact takeByte_progress b (offerBytes_inv bs hI) hr

/-- Where no read is outstanding, an event or a frame changes nothing (R52). -/
theorem transport_blocked {i : Instr} {s t : State} (hr : s.tReady = false)
    (hi : (∃ b, i = .tByte b) ∨ i = .tEos ∨ (∃ k, i = .tErr k) ∨ i = .tErrReserved ∨ ∃ f, i = .frame f)
    (h : exec i s = .next t) : t = s := by
  rcases hi with ⟨b, rfl⟩ | rfl | ⟨k, rfl⟩ | rfl | ⟨f, rfl⟩ <;>
    simp only [exec, execTByte, execTEos, execTErr, execTErrReserved, execFrame, hr, Bool.false_eq_true,
      if_false, Host.Outcome.next.injEq] at h <;> exact h.symm

/-- All that a command can do, when it does not stop: nothing, an answer with nothing else changed, or
the start of a read. -/
theorem command_cases {i : Instr} {s t : State} (hi : (∃ n, i = .readExact n) ∨ i = .decodeFrame)
    (h : exec i s = .next t) :
    (s.cmd ≠ .none ∧ t = s)
      ∨ (s.cmd = .none ∧ ∃ c r, commandOf i = some c ∧ t = respond c r s)
      ∨ (s.cmd = .none ∧ s.fst ≠ .failed ∧ ∃ n, i = .readExact n ∧ n ≠ 0 ∧ n.toNat ≤ s.bufCap
          ∧ t = State.readingWith { s with cmd := .readExact } n)
      ∨ (s.cmd = .none ∧ s.fst ≠ .failed ∧ i = .decodeFrame ∧ cfgWellFormed s.bufCap s.cfg = true
          ∧ t = State.readingWith { s with cmd := .decodeFrame, lCfg := s.cfg } 4) := by
  rcases hi with ⟨n, rfl⟩ | rfl
  · replace h : execReadExact n s = .next t := h
    unfold execReadExact at h
    split at h
    · next hc =>
      rw [cmdReady_iff] at hc
      split at h
      · injection h with h; exact .inr (.inl ⟨hc, _, _, rfl, h.symm⟩)
      · next hd =>
        rw [dead_iff] at hd
        split at h
        · cases h
        · next hn =>
          split at h
          · injection h with h; exact .inr (.inl ⟨hc, _, _, rfl, h.symm⟩)
          · next h0 => injection h with h; exact .inr (.inr (.inl ⟨hc, hd, n, rfl, h0, by omega, h.symm⟩))
    · next hc => injection h with h; exact .inl ⟨by simpa [cmdReady_iff] using hc, h.symm⟩
  · replace h : execDecodeFrame s = .next t := h
    unfold execDecodeFrame at h
    split at h
    · next hc =>
      rw [cmdReady_iff] at hc
      split at h
      · injection h with h; exact .inr (.inl ⟨hc, _, _, rfl, h.symm⟩)
      · next hd =>
        rw [dead_iff] at hd
        split at h
        · next hw => injection h with h; exact .inr (.inr (.inr ⟨hc, hd, rfl, hw, h.symm⟩))
        · cases h
    · next hc => injection h with h; exact .inl ⟨by simpa [cmdReady_iff] using hc, h.symm⟩

end Sys2Proof.Machine
end

