-- ==== Sys2Proof/Laws/Inputs.lean ====
section
/-! SUPPORT. The configuration inputs, the sampled `BLOCK_SIZE` and what else is offered reach nothing that
a transport event does (R36, R56, R52): every operation of the two components commutes with replacing
them. -/

namespace Sys2Proof.Machine

/-- `s` with its configuration inputs, what is offered and its sampled block size replaced. -/
def State.withInputs (c : Cfg) (k : Byte) (l : List Line) (s : State) : State :=
  { s with cfg := c, script := l, lCfg := { s.lCfg with blockSize := k } }

variable (c : Cfg) (k : Byte) (l : List Line)

theorem commit_withInputs (s : State) : commit (s.withInputs c k l) = (commit s).withInputs c k l := rfl

theorem raise_withInputs (d) (f) (s : State) :
    raise d f (s.withInputs c k l) = (raise d f s).withInputs c k l := rfl

theorem macStage_withInputs (d) (s : State) :
    macStage d (s.withInputs c k l) = (macStage d s).withInputs c k l := by
  unfold macStage
  show (if Config.macCompute s.seq s.lenf s.body = d then _ else _) = _
  split <;> rfl

theorem startRead_withInputs (n) (K : State → State) (hK : ∀ s, K (s.withInputs c k l) = (K s).withInputs c k l) (s : State) :
    startRead n K (s.withInputs c k l) = (startRead n K s).withInputs c k l := by
  unfold startRead
  split
  · exact hK (clearRead s)
  · rfl

theorem afterPadding_withInputs (s : State) :
    afterPadding (s.withInputs c k l) = (afterPadding s).withInputs c k l := by
  unfold afterPadding
  show (if s.lCfg.macActive then _ else _) = _
  split
  · exact startRead_withInputs c k l _ _ (macStage_withInputs c k l []) { s with fst := .awaitingMac }
  · rfl

theorem bodyStage_withInputs (d) (s : State) :
    bodyStage d (s.withInputs c k l) = (bodyStage d s).withInputs c k l := by
  rw [bodyStage_eq, bodyStage_eq]
  have e : paddingFault ((s.withInputs c k l).plain d) (s.withInputs c k l).pktLen = paddingFault (s.plain d) s.pktLen := rfl
  simp only [e]
  cases paddingFault (s.plain d) s.pktLen with
  | some f => rfl
  | none => exact afterPadding_withInputs c k l { s with cs := s.csAfter d, body := s.plain d, padLen := (s.plain d).headD 0 }

theorem lengthStage_withInputs (d) (s : State) :
    lengthStage d (s.withInputs c k l) = (lengthStage d s).withInputs c k l := by
  rw [lengthStage_eq, lengthStage_eq]
  have e1 : (s.withInputs c k l).plain d = s.plain d := rfl
  have e2 : (∀ x, lengthInBounds (s.withInputs c k l).lCfg x = lengthInBounds s.lCfg x) := fun _ => rfl
  simp only [e1, e2]
  cases lengthInBounds s.lCfg (be32 (bytes4OfList (s.plain d))) with
  | false => rfl
  | true => exact startRead_withInputs c k l _ _ (bodyStage_withInputs c k l []) { s with cs := s.csAfter d, lenf := bytes4OfList (s.plain d), pktLen := be32 (bytes4OfList (s.plain d)), fst := .awaitingBody }

theorem continueFrame_withInputs (d) (s : State) :
    continueFrame d (s.withInputs c k l) = (continueFrame d s).withInputs c k l := by
  have e1 : (s.withInputs c k l).fst = s.fst := rfl
  unfold continueFrame
  simp only [e1]
  cases s.fst with
  | awaitingLength => exact lengthStage_withInputs c k l d s
  | awaitingBody => exact bodyStage_withInputs c k l d s
  | awaitingMac => exact macStage_withInputs c k l d s
  | done => rfl
  | failed => rfl

theorem takeByte_withInputs (b) (s : State) :
    takeByte b (s.withInputs c k l) = (takeByte b s).withInputs c k l := by
  by_cases hl : s.rdK + 1 = s.rdN
  · by_cases hc : s.cmd = .readExact
    · rw [takeByte_completes_direct hl hc, takeByte_completes_direct (s := State.withInputs c k l s) hl hc]; rfl
    · rw [takeByte_completes_frame hl hc, takeByte_completes_frame (s := State.withInputs c k l s) hl hc]
      exact continueFrame_withInputs c k l _ (clearRead { s with cur := s.cur + 1 })
  · rw [takeByte_collects hl, takeByte_collects (s := State.withInputs c k l s) hl]; rfl

theorem takeFailure_withInputs (f) (s : State) :
    takeFailure f (s.withInputs c k l) = (takeFailure f s).withInputs c k l := by
  rw [takeFailure_eq, takeFailure_eq]
  unfold loseCipher
  show State.deadWith (if (s.cmd = .decodeFrame ∧ s.fst = .awaitingBody ∧ s.lCfg.cipherActive = true ∧ s.rdK ≠ 0) then _ else _) _ _ = _
  split <;> rfl

theorem exec_transport_withInputs {i : Instr} (s : State)
    (hi : (∃ b, i = .tByte b) ∨ i = .tEos ∨ (∃ k, i = .tErr k) ∨ i = .tErrReserved ∨ ∃ f, i = .frame f) :
    exec i (s.withInputs c k s.script) = mapNext (fun t => t.withInputs c k t.script) (exec i s) := by
  have h1 : (s.withInputs c k s.script).tReady = s.tReady := rfl
  have hb (b) (s : State) :
      takeByte b (s.withInputs c k s.script) = (takeByte b s).withInputs c k (takeByte b s).script := by
    rw [takeByte_withInputs, (takeByte_leaves b s).2.2.1]
  have hf (f) : takeFailure f (s.withInputs c k s.script)
      = (takeFailure f s).withInputs c k (takeFailure f s).script := by
    rw [takeFailure_withInputs, (takeFailure_leaves f s).2.2.1]
  rcases hi with ⟨b, rfl⟩ | rfl | ⟨j, rfl⟩ | rfl | ⟨f, rfl⟩ <;>
    simp only [exec, execTByte, execTEos, execTErr, execTErrReserved, h1, mapNext]
  · split <;> congr 1; exact hb b s
  · split <;> congr 1; exact hf _
  · split <;> congr 1; exact hf _
  · split <;> congr 1; exact hf _
  · cases hr : s.tReady with
    | false => rw [execFrame_blocked f hr, execFrame_blocked f (h1.trans hr)]
    | true =>
      obtain ⟨b, bs, he⟩ := frameBytes_cons s f
      rw [execFrame_eq hr he, execFrame_eq (h1.trans hr) he]
      exact congrArg _ (hb b (offerBytes bs s))

/-- What else is offered reaches nothing that a consumed byte does. -/
theorem takeByte_setScript (b : Byte) (s : State) (l : List Line) :
    takeByte b { s with script := l } = { takeByte b s with script := l } := by
  have h := takeByte_withInputs s.cfg s.lCfg.blockSize l b s
  rw [show s.withInputs s.cfg s.lCfg.blockSize l = { s with script := l } from rfl] at h
  rw [h]
  obtain ⟨h1, h2, -⟩ := takeByte_leaves b s
  unfold State.withInputs
  rw [← h1, ← h2]

/-! ### `L_CFG` and a direct read: it reaches nothing (R36) -/

theorem takeByte_setLCfg (b) (s : State) (c) (h : s.cmd = .readExact) :
    takeByte b (s.setLCfg c) = (takeByte b s).setLCfg c := by
  by_cases hl : s.rdK + 1 = s.rdN
  · rw [takeByte_completes_direct hl h, takeByte_completes_direct (s := s.setLCfg c) hl h]; rfl
  · rw [takeByte_collects hl, takeByte_collects (s := s.setLCfg c) hl]; rfl

theorem takeFailure_setLCfg (f) (s : State) (c) (h : s.cmd ≠ .decodeFrame) :
    takeFailure f (s.setLCfg c) = (takeFailure f s).setLCfg c := by
  rw [takeFailure_eq, takeFailure_eq, loseCipher_of_not (s := s) (.inl h),
    loseCipher_of_not (s := s.setLCfg c) (.inl (by exact h))]
  rfl

end Sys2Proof.Machine
end

