-- ==== Sys2Proof/Laws/Runs.lean ====
section
/-! SUPPORT. A whole read, byte after byte: what `offerEvents` does with the bytes of one
outstanding read. -/

namespace Sys2Proof.Machine

/-- A read of `n` bytes outstanding that has collected `l`, the rest as in `u` before it started. -/
def State.collectedWith (u : State) (n : Word) (l : List Byte) : State :=
  { u with
    rdActive := true, rdN := n, rdK := BitVec.ofNat 32 l.length, abuf := l, cur := u.cur + l.length }

theorem collectedWith_nil (u : State) (n : Word) : u.collectedWith n [] = u.readingWith n := rfl

theorem collectedWith_tReady {u : State} {n : Word} {l : List Byte} (h : l.length < n.toNat) :
    (u.collectedWith n l).tReady = true := by
  refine (tReady_iff _).2 ⟨rfl, ?_⟩
  show BitVec.ofNat 32 l.length < n
  have := n.isLt
  rw [BitVec.lt_def, BitVec.toNat_ofNat, Nat.mod_eq_of_lt (by omega)]
  exact h

theorem ofNat_succ_eq {n : Word} {k : Nat} (h : k < n.toNat) :
    BitVec.ofNat 32 k + 1 = n ↔ k + 1 = n.toNat := by
  have hn := n.isLt
  rw [← BitVec.toNat_inj, BitVec.toNat_add, BitVec.toNat_ofNat, Nat.mod_eq_of_lt (a := k) (by omega)]
  show (k + 1) % 2 ^ 32 = _ ↔ _
  rw [Nat.mod_eq_of_lt (by omega)]

theorem takeByte_collectedWith {u : State} {n : Word} {l : List Byte} {b : Byte}
    (h : l.length + 1 < n.toNat) : takeByte b (u.collectedWith n l) = u.collectedWith n (l ++ [b]) := by
  have hne : (u.collectedWith n l).rdK + 1 ≠ (u.collectedWith n l).rdN := fun hc => by
    have := (ofNat_succ_eq (n := n) (k := l.length) (by omega)).1 hc
    omega
  rw [takeByte_collects hne]
  simp only [State.collectedWith, List.length_append, List.length_cons, List.length_nil, State.mk.injEq,
    true_and, and_true]
  refine ⟨?_, by omega⟩
  apply BitVec.eq_of_toNat_eq
  simp

theorem takeByte_collectedWith_last {u : State} {n : Word} {l : List Byte} {b : Byte}
    (h : l.length + 1 = n.toNat) :
    takeByte b (u.collectedWith n l) = readDone (l ++ [b]) { u with rdN := n, cur := u.cur + n.toNat } := by
  have he : (u.collectedWith n l).rdK + 1 = (u.collectedWith n l).rdN :=
    (ofNat_succ_eq (n := n) (k := l.length) (by omega)).2 h
  rw [takeByte_completes he]
  have : u.cur + n.toNat = u.cur + l.length + 1 := by omega
  rw [this]
  rfl

/-! ### Runs over events -/

theorem offerEvents_byte {b : Byte} {E : List TEvent} {s : State} (h : s.tReady = true) :
    offerEvents (.byte b :: E) s = offerEvents E (takeByte b s) := by
  simp [offerEvents, h, eventInstr, exec, execTByte]

theorem offerEvents_eos {E : List TEvent} {s : State} (h : s.tReady = true) :
    offerEvents (.eos :: E) s = offerEvents E (takeFailure (.shortRead s.rdN s.rdK) s) := by
  simp [offerEvents, h, eventInstr, exec, execTEos]

theorem offerEvents_err {k : BitVec 2} {E : List TEvent} {s : State} (h : s.tReady = true) :
    offerEvents (.err k :: E) s = offerEvents E (takeFailure (.transportError k) s) := by
  simp [offerEvents, h, eventInstr, exec, execTErr]

/-- Where no read is outstanding every event stays (R52). -/
theorem offerEvents_blocked {E : List TEvent} {s : State} (h : s.tReady = false) :
    offerEvents E s = (s, E) := by
  cases E <;> simp [offerEvents, h]

theorem offerEvents_collects {u : State} {n : Word} (l r : List Byte) {E : List TEvent}
    (h : r.length + l.length < n.toNat) :
    offerEvents (l.map .byte ++ E) (u.collectedWith n r) = offerEvents E (u.collectedWith n (r ++ l)) := by
  induction l generalizing r with
  | nil => simp
  | cons b l ih =>
    simp only [List.length_cons] at h
    simp only [List.map_cons, List.cons_append]
    rw [offerEvents_byte (collectedWith_tReady (by omega)), takeByte_collectedWith (by omega),
      ih (r ++ [b]) (by simp; omega)]
    simp

/-- The bytes of a read that lacks some are collected (R104). -/
theorem offerEvents_partial {u : State} {n : Word} {l : List Byte} {E : List TEvent}
    (h : l.length < n.toNat) :
    offerEvents (l.map .byte ++ E) (u.readingWith n) = offerEvents E (u.collectedWith n l) :=
  offerEvents_collects l [] (by simpa using h)

/-- The bytes of a whole read complete it (R104, R107). -/
theorem offerEvents_full {u : State} {n : Word} {l : List Byte} {E : List TEvent} (h0 : n ≠ 0)
    (h : l.length = n.toNat) :
    offerEvents (l.map .byte ++ E) (u.readingWith n)
      = offerEvents E (readDone l { u with rdN := n, cur := u.cur + n.toNat }) := by
  have hn : n.toNat ≠ 0 := fun hc => h0 (BitVec.eq_of_toNat_eq hc)
  obtain ⟨r, b, rfl⟩ : ∃ r b, l = r ++ [b] :=
    ⟨l.dropLast, l.getLast (by rintro rfl; simp at h; omega), (List.dropLast_append_getLast _).symm⟩
  simp only [List.length_append, List.length_cons, List.length_nil] at h
  simp only [List.map_append, List.map_cons, List.map_nil, List.append_assoc, List.cons_append,
    List.nil_append]
  rw [offerEvents_partial (by omega), offerEvents_byte (collectedWith_tReady (by omega)),
    takeByte_collectedWith_last (by omega)]

/-! ### The function of R108 -/

/-- All that the leading bytes of a sequence of events can be. -/
theorem leadingBytes_spec (n : Nat) (E : List TEvent) :
    E = (leadingBytes n E).1.map .byte ++ (leadingBytes n E).2
      ∧ (leadingBytes n E).1.length ≤ n
      ∧ ((leadingBytes n E).1.length < n → ∀ b E', (leadingBytes n E).2 ≠ .byte b :: E') := by
  induction n generalizing E with
  | zero => simp [leadingBytes]
  | succ n ih =>
    cases E with
    | nil => simp [leadingBytes]
    | cons e E =>
      cases e with
      | byte b =>
        obtain ⟨h1, h2, h3⟩ := ih E
        refine ⟨?_, by simpa [leadingBytes] using h2, ?_⟩
        · simp only [leadingBytes, List.map_cons, List.cons_append]
          rw [← h1]
        · intro hl
          exact h3 (by simpa [leadingBytes] using hl)
      | eos => simp [leadingBytes]
      | err k => simp [leadingBytes]

/-- All that the function of R108 can answer, and what the events then are. -/
theorem readExactFn_cases (n : Word) (E : List TEvent) :
    (∃ l rest, readExactFn n E = .ok l rest ∧ l.length = n.toNat ∧ E = l.map .byte ++ rest)
      ∨ (∃ l : List Byte, l.length < n.toNat ∧
        ((∃ rest, E = l.map .byte ++ .eos :: rest
            ∧ readExactFn n E = .fail (.shortRead n (BitVec.ofNat 32 l.length)) l.length)
          ∨ (∃ k rest, E = l.map .byte ++ .err k :: rest
            ∧ readExactFn n E = .fail (.transportError k) l.length)
          ∨ (E = l.map .byte ∧ readExactFn n E = .waits l.length))) := by
  obtain ⟨h1, h2, h3⟩ := leadingBytes_spec n.toNat E
  unfold readExactFn
  by_cases hl : (leadingBytes n.toNat E).1.length = n.toNat
  · exact .inl ⟨_, _, if_pos hl, hl, h1⟩
  · have hlt : (leadingBytes n.toNat E).1.length < n.toNat := by omega
    refine .inr ⟨(leadingBytes n.toNat E).1, hlt, ?_⟩
    simp only [hl, if_false]
    cases hr : (leadingBytes n.toNat E).2 with
    | nil => rw [hr] at h1; exact .inr (.inr ⟨by simpa using h1, rfl⟩)
    | cons e rest =>
      rw [hr] at h1
      cases e with
      | byte b => exact absurd hr (h3 hlt b rest)
      | eos => exact .inl ⟨rest, h1, rfl⟩
      | err k => exact .inr (.inl ⟨k, rest, h1, rfl⟩)

end Sys2Proof.Machine
end

