-- ==== Sys2Proof/Laws/Bytes.lean ====
section
/-! SUPPORT. A run of the machine over bytes that are offered one by one, and over a FRAME: one step for each
byte, and what the events taken one by one come to (R66, R88). -/

namespace Sys2Proof.Machine

theorem run_succ (k : Nat) {s t : State} (h : step s = .next t) :
    Host.Core.run Sys2Proof.core (k + 1) s = Host.Core.run Sys2Proof.core k t := by
  have e : ∀ (M : Host.Core) a b, M.step a = .next b → M.run (k + 1) a = M.run k b := by
    intro M a b h; simp [Host.Core.run, h]
  exact e Sys2Proof.core s t h

/-- A run goes on as the step does. -/
theorem run_congr (k : Nat) {s s' : State} (h : step s = step s') :
    Host.Core.run Sys2Proof.core (k + 1) s = Host.Core.run Sys2Proof.core (k + 1) s' := by
  have e : ∀ (M : Host.Core) a b, M.step a = M.step b → M.run (k + 1) a = M.run (k + 1) b := by
    intro M a b h; simp [Host.Core.run, h]
  exact e Sys2Proof.core s s' h

/-- A FRAME line is the lines of its bytes (R88), wherever it stands. -/
theorem step_frame {s : State} {pre rest : List Line} {f : WireFrame} (h : ∀ l ∈ pre, lineStep s l = none)
    (hr : s.tReady = true) (hs : s.script = pre ++ .frame f :: rest) :
    step s = step { s with script := pre ++ (byteLines (s.frameBytes f) ++ rest) } := by
  obtain ⟨b, bs, hf⟩ := frameBytes_cons s f
  have hs' : ({ s with script := pre ++ (byteLines (s.frameBytes f) ++ rest) } : State).script
      = pre ++ .event (byteEvent b) :: (byteLines bs ++ rest) := by rw [hf]; rfl
  rw [step_takes h (lineStep_frame hr hf) hs,
    step_takes (s := { s with script := pre ++ (byteLines (s.frameBytes f) ++ rest) }) h
      (lineStep_event (byteEvent b) hr) hs']
  simp

/-- The step of a byte that stands first (R104). -/
theorem step_byte {s : State} {b : Byte} {rest : List Line} (hr : s.tReady = true) :
    step { s with script := .event (byteEvent b) :: rest } = .next { takeByte b s with script := rest } := by
  rw [step_takes (s := { s with script := .event (byteEvent b) :: rest }) (pre := []) (by simp)
    (lineStep_event (byteEvent b) hr) rfl]
  show exec (decodeEvent (byteEvent b)) { s with script := rest } = _
  rw [decodeEvent_byteEvent]
  show Host.Outcome.next (if State.tReady { s with script := rest } then _ else _) = _
  rw [if_pos (by exact hr)]
  exact congrArg _ (takeByte_setScript b s rest)

/-- Bytes offered one by one: what a run does with them, one step for each that is consumed. -/
theorem run_bytes (bs : List Byte) (s : State) (rest : List Line) :
    ∃ k t, k ≤ bs.length ∧ offerEvents (bs.map .byte) s = (t, (bs.drop k).map .byte)
      ∧ Host.Core.run Sys2Proof.core k { s with script := byteLines bs ++ rest }
        = .next { t with script := byteLines (bs.drop k) ++ rest }
      ∧ t.cur = s.cur + k ∧ (k < bs.length → t.tReady = false) ∧ (s.tReady = true → bs ≠ [] → 1 ≤ k)
      ∧ t.cfg = s.cfg ∧ t.lCfg = s.lCfg ∧ t.bufCap = s.bufCap ∧ t.csInit = s.csInit := by
  induction bs generalizing s with
  | nil => exact ⟨0, s, by simp, rfl, rfl, rfl, by simp, by simp, rfl, rfl, rfl, rfl⟩
  | cons b bs ih =>
    by_cases hr : s.tReady = true
    · obtain ⟨k, t, h1, h2, h3, h4, h5, -, h6, h7, h8, h9⟩ := ih (takeByte b s)
      obtain ⟨a1, a2, -, a4, a5, -⟩ := takeByte_leaves b s
      refine ⟨k + 1, t, by simpa using h1, ?_, ?_, ?_, by simpa using h5, by simp, h6.trans a2, h7.trans a1,
        h8.trans a4, h9.trans a5⟩
      · rw [List.map_cons, offerEvents_byte hr, h2]; rfl
      · exact (run_succ k (step_byte hr)).trans h3
      · rw [h4, takeByte_cur]; omega
    · have hr' : s.tReady = false := by simpa using hr
      exact ⟨0, s, by simp, offerEvents_blocked hr', rfl, rfl, fun _ => hr', fun h => absurd h hr, rfl, rfl,
        rfl, rfl⟩

/-- Bytes that are all consumed. -/
theorem run_bytes_all {bs : List Byte} {s t : State} (h : offerEvents (bs.map .byte) s = (t, []))
    (rest : List Line) :
    Host.Core.run Sys2Proof.core bs.length { s with script := byteLines bs ++ rest }
      = .next { t with script := rest } := by
  obtain ⟨k, u, h1, h2, h3, -⟩ := run_bytes bs s rest
  rw [h] at h2
  injection h2 with hu hk
  have hd : bs.drop k = [] := by simpa using hk.symm
  have : k = bs.length := by
    have := congrArg List.length hd
    simp at this
    omega
  subst this
  rw [h3, hd, hu]
  rfl

end Sys2Proof.Machine
end

