-- ==== Sys2Proof/Laws/PerInstr.lean ====
section
/-! SUPPORT. Families of statements made for every operation, one lemma for each constructor. -/

/-- Family `EncodeDecode`: decoding what the encoder gives for a well-formed operation gives it back. -/
def Sys2Proof.Laws.EncodeDecode.Statement (i : Sys2Proof.Instr) : Prop :=
  i.wf = true → ∀ c, Sys2Proof.encode i = some c → Sys2Proof.decode c = .ok i

namespace Sys2Proof.Laws.EncodeDecode

theorem readExact (n : Word) : Statement (.readExact n) := by
  intro _ c hc
  cases hc
  exact congrArg Except.ok (decodeCommand_readExact n)

theorem decodeFrame : Statement .decodeFrame := by
  intro _ c hc
  cases hc
  rfl

theorem tByte (b : Byte) : Statement (.tByte b) := by
  intro _ c hc
  cases hc
  exact congrArg Except.ok (decodeEvent_byteEvent b)

theorem tEos : Statement .tEos := by
  intro _ c hc
  cases hc
  rfl

theorem tErr (k : BitVec 2) : Statement (.tErr k) := by
  intro _ c hc
  cases hc
  exact congrArg Except.ok (decodeEvent_tErr k)

theorem tErrReserved : Statement .tErrReserved := by
  intro _ c hc
  cases hc
  rfl

theorem seqNext : Statement .seqNext := by
  intro _ c hc
  cases hc

theorem frame (f : WireFrame) : Statement (.frame f) := by
  intro h c hc
  cases hc
  show (decodeWire (encodeWire f)).map Instr.frame = _
  rw [decodeWire_encodeWire h]
  rfl

end Sys2Proof.Laws.EncodeDecode
end

