-- ==== Sys2Proof/Tests/Slice0.lean ====
section
/-! SUPPORT. The model's own tests, with expected values from the spec's encodings and 95_test_vectors.md,
and a witness for the hypotheses of every obligation that has some. -/

namespace Sys2Proof.Tests

open Sys2Proof.Machine

/-! ### Small states -/

/-- The test configurations of 95_test_vectors.md section 0. -/
def cfgOf (lo hi : Word) (mac : Bool) (len : Word) : Cfg :=
  { minFrameSize := lo, maxFrameSize := hi, cipherActive := false, blockSize := 8, macActive := mac,
    macLength := len }

def cfgA : Cfg := cfgOf 5 1024 false 0
def cfgB : Cfg := cfgOf 5 1024 true 4
def cfgZ : Cfg := cfgOf 0 1024 false 0

/-- An idle framer with configuration inputs `c`. -/
def idle (c : Cfg) : State := { State.reset with cfg := c, lCfg := c }

/-- A direct read of `n` bytes that has collected `l`. -/
def reading (n : Word) (l : List Byte) : State :=
  { idle cfgA with
    cmd := .readExact, rdActive := true, rdN := n, rdK := BitVec.ofNat 32 l.length, abuf := l, cur := l.length }

/-- A length read that has collected `l`. -/
def lengthRead (c : Cfg) (l : List Byte) : State :=
  { idle c with
    cmd := .decodeFrame, rdActive := true, rdN := 4, rdK := BitVec.ofNat 32 l.length, abuf := l, cur := l.length }

/-- A body read of `n` bytes that has collected `l`. -/
def bodyRead (c : Cfg) (n : Word) (l : List Byte) : State :=
  { lengthRead c l with
    fst := .awaitingBody, rdN := n, pktLen := n, lenf := be32bytes n, cur := 4 + l.length }

/-- A MAC read of a frame with no payload and padding 01 02 03 04, that has collected `l`. -/
def macRead (l : List Byte) : State :=
  { bodyRead cfgB 5 l with
    fst := .awaitingMac, rdN := 4, body := [4, 1, 2, 3, 4], padLen := 4, cur := 9 + l.length }

/-- A direction that died of a short read of 2 bytes (V8). -/
def deadState : State :=
  State.deadWith (idle cfgA) (.readExact 2) { code := .shortRead, kind := 0, reason := .none, expected := 2, actual := 0 }

/-- F-ping (S9). -/
def ping : WireFrame :=
  { packetLength := 9, paddingLength := 4, payload := [0x70, 0x69, 0x6E, 0x67], padding := [0, 0, 0, 0],
    mac := [] }

/-- F-ping8m0: "ping" with seven padding bytes and the MAC that `MacSum4` gives. -/
def ping8m : WireFrame :=
  { packetLength := 12, paddingLength := 7, payload := [0x70, 0x69, 0x6E, 0x67],
    padding := [1, 2, 3, 4, 5, 6, 7], mac := [0, 0, 1, 0xDD] }

/-- The next state, where there is one. -/
def next? : Host.Outcome State Fault Refusal → Option State
  | .next s => some s
  | .fault _ => none
  | .refused _ => none

/-- What a test looks at: the responses with their commands, `CMD`, `FST`, `SEQ`, `CUR`. -/
def seen (o : Host.Outcome State Fault Refusal) : Option (List Answer × Cmd × Fst × Word × Nat) :=
  (next? o).map fun s => (s.responses, s.cmd, s.fst, s.seq, s.cur)

/-! ### Well-formedness: an ill-formed frame for each check -/

theorem test_wf_ping : (Instr.frame ping).wf = true := by decide

theorem test_wf_packet_length_counts : (Instr.frame { ping with packetLength := 10 }).wf = false := by decide

theorem test_wf_padding_has_its_length :
    (Instr.frame { ping with paddingLength := 5 }).wf = false := by decide

theorem test_wf_padding_at_least_4 :
    (Instr.frame { ping with packetLength := 8, paddingLength := 3, padding := [0, 0, 0] }).wf = false := by decide

/-! ### Decoding: words written out from R80 to R83 and R87 -/

theorem test_decode_read_exact : decode (.command 0b000000000000000000000000000000011#33) = .ok (.readExact 3) := by
  decide

theorem test_decode_decode_frame : decode (.command 0b100000000000000000000000000000000#33) = .ok .decodeFrame := by
  decide

theorem test_decode_t_byte : decode (.event 0b0010101010#10) = .ok (.tByte 0xAA) := by decide

theorem test_decode_t_eos : decode (.event 0b0100000000#10) = .ok .tEos := by decide

theorem test_decode_t_err : decode (.event 0b1000000010#10) = .ok (.tErr 2) := by decide

theorem test_decode_t_err_ignored_bits : decode (.event 0b1011111101#10) = .ok (.tErr 1) := by decide

theorem test_decode_reserved_kind : decode (.event 0b1110100111#10) = .ok .tErrReserved := by decide

/-- F-ping8m0's wire bytes (section 0 of the vectors). -/
theorem test_decode_frame :
    decode (.wire [0, 0, 0, 0x0C, 7, 0x70, 0x69, 0x6E, 0x67, 1, 2, 3, 4, 5, 6, 7, 0, 0, 1, 0xDD])
      = .ok (.frame ping8m) := by decide

/-- W8: padding that exceeds the packet is no frame. -/
theorem test_decode_frame_bad_padding :
    decode (.wire [0, 0, 0, 5, 5, 1, 2, 3, 4]) = .error .framePaddingExceedsPacket := by decide

/-- The host's table words: 10, 33 and 72 bits, bit 0 least significant. -/
theorem test_table_words :
    decodeTableWord 10 0x1FF = some .tEos ∧ decodeTableWord 33 0x000000007 = some (.readExact 7)
      ∧ decodeTableWord 33 0x100000000 = some .decodeFrame ∧ decodeTableWord 0 0 = none
      ∧ decodeTableWord 72 0x000000000405000000 = some (.frame
          { packetLength := 5, paddingLength := 4, payload := [], padding := [0, 0, 0, 0], mac := [] }) := by
  decide

/-- With a word placed, the very next step runs it. -/
theorem test_fetch_read_exact :
    (next? (step (State.reset.withFetchWord 33 5))).map (fun s => (s.cmd, s.rdN)) = some (.readExact, 5) := by
  decide

theorem test_fetch_events :
    (next? (step (State.reset.withFetchWord 10 0x07F))).map (fun s => s.responses) = some [⟨.readExact 1, .ok [0x7F]⟩]
      ∧ (next? (step (State.reset.withFetchWord 10 0x202))).map (fun s => s.err.kind) = some 2 := by
  decide

/-- The headers of 95_test_vectors.md section 0. -/
theorem test_response_headers :
    responseHeader (.ok [0x70, 0x69, 0x6E, 0x67]) = 0x00000000000000000000000004#103
      ∧ responseHeader (.fail (failureRecord (.transportError 1))) = 0x14000000000000000000000000#103
      ∧ responseHeader (.fail (failureRecord (.shortRead 12 6))) = 0x200000000C0000000600000000#103
      ∧ responseHeader (.fail (failureRecord (.protocolViolation .lengthOutOfBounds))) = 0x31000000000000000000000000#103
      ∧ responseHeader (.fail (failureRecord .integrityViolation)) = 0x40000000000000000000000000#103 := by
  decide

/-! ### One step of each operation, from 95_test_vectors.md -/

/-- S3. -/
theorem test_read_exact_0 : seen (exec (.readExact 0) State.reset) = some ([⟨.readExact 0, .ok []⟩], .none, .awaitingLength, 0, 0) := by
  decide

/-- V8: a dead direction repeats its failure, also to READ_EXACT 0. -/
theorem test_read_exact_dead :
    ((next? (exec (.readExact 0) deadState)).bind (fun s => s.responses.getLast?)).map (fun a => (a.command, responseHeader a.response))
      = some (.readExact 0, 0x20000000020000000000000000#103) := by decide

/-- R131: four bytes are asked for. -/
theorem test_decode_frame_starts :
    (next? (exec .decodeFrame (idle cfgB))).map (fun s => (s.cmd, s.rdN, s.rdActive, s.lCfg)) = some (.decodeFrame, 4, true, cfgB) := by
  decide

/-- R104's worked example. -/
theorem test_t_byte_last :
    seen (exec (.tByte 9) (reading 4 [0, 0, 0])) = some ([⟨.readExact 4, .ok [0, 0, 0, 9]⟩], .none, .awaitingLength, 0, 4) := by
  decide

/-- W8, last byte: `1 + P` is one above `L`. -/
theorem test_t_byte_padding :
    (next? (exec (.tByte 4) (bodyRead cfgA 5 [5, 1, 2, 3]))).map (fun s => (s.err.reason, s.fst, s.cur))
      = some (.paddingExceedsPacket, .failed, 9) := by decide

/-- V6. -/
theorem test_t_eos :
    seen (exec .tEos (reading 2 [0x10]))
      = some ([⟨.readExact 2, .fail (failureRecord (.shortRead 2 1))⟩], .none, .failed, 0, 1) := by decide

/-- W18: the end of the stream between body and MAC. -/
theorem test_t_eos_mac :
    (next? (exec .tEos (macRead []))).map (fun s => (s.err.expected, s.err.actual, s.body, s.pktLen))
      = some (4, 0, [], 0) := by decide

/-- V3, the third kind. -/
theorem test_t_err_closed :
    (next? (exec (.tErr 2) (reading 4 []))).map (fun s => (s.err, s.cur))
      = some ({ code := .transportError, kind := 2, reason := .none, expected := 0, actual := 0 }, 0) := by decide

/-- V4: the reserved event kind is an I/O error. -/
theorem test_t_err_reserved :
    (next? (exec (decodeEvent 0x3A7#10) (reading 2 []))).map (fun s => (s.err.code, s.err.kind, s.fst))
      = some (.transportError, 0, .failed) := by decide

/-- S8. -/
theorem test_seq_next_wraps :
    (seqNext { State.reset with seq := 4294967295 }).1 = 4294967295
      ∧ (next? (exec .seqNext { State.reset with seq := 4294967295 })).map (fun s => s.seq) = some 0 := by decide

/-- S9: the document's frame, its first byte: `00`, with the twelve others offered next. -/
theorem test_frame_ping :
    (next? (exec (.frame ping) (lengthRead cfgA []))).map (fun s => (s.cur, s.abuf, s.script))
      = some (1, [0], byteLines [0, 0, 9, 4, 0x70, 0x69, 0x6E, 0x67, 0, 0, 0, 0]) := by decide

/-- R36: in a direct read FRAME's bytes are those of the wire format, whatever `L_CFG` holds; what the read
does not need stays with the transport. -/
theorem test_frame_direct_read :
    (next? (exec (.frame ping) { reading 1 [] with lCfg := { cfgA with cipherActive := true } })).map
        (fun s => (s.responses, s.tReady, s.script.length))
      = some ([⟨.readExact 1, .ok [0]⟩], false, 12) := by decide

/-- R7, R87: CFG is no step: the step that takes the command finds the inputs driven, and CFG alone waits. -/
theorem test_cfg_is_no_step :
    (next? (step { idle cfgA with script := [.config cfgZ, .config cfgB, .command 0x100000000#33, .event 7] })).map
        (fun s => (s.cmd, s.lCfg, s.script))
      = some (.decodeFrame, cfgB, [.event 7])
      ∧ next? (step { reading 4 [] with script := [.config cfgB, .command 3] })
        = some { reading 4 [] with script := [.config cfgB, .command 3] } := by decide

/-- R7, R88: the step of a FRAME consumes its first byte and nothing more. -/
theorem test_step_frame :
    (next? (step { lengthRead cfgA [] with script := [.command 3, .frame ping, .reset] })).map
        (fun s => (s.cur, s.abuf, s.script.length)) = some (1, [0], 14) := by decide

/-- F-ping of section 0, and what R151 requires of the padding. -/
theorem test_encode_frame :
    encodeFrame cfgA 0 [] [0x70, 0x69, 0x6E, 0x67] 4 [0, 0, 0, 0]
        = some [0, 0, 0, 9, 4, 0x70, 0x69, 0x6E, 0x67, 0, 0, 0, 0]
      ∧ encodeFrame cfgA 0 [] [0x70] 3 [0, 0, 0] = none ∧ encodeFrame cfgA 0 [] [0x70] 4 [0, 0, 0] = none := by
  decide

/-- F-pong8m1 of section 0, with the capability's MAC: over `seq`, the length field and the body. -/
theorem test_encode_frame_mac :
    encodeFrame cfgB 1 [] [0x70, 0x6F, 0x6E, 0x67] 7 [0, 0, 0, 0, 0, 0, 0]
      = some ([0, 0, 0, 0x0C, 7, 0x70, 0x6F, 0x6E, 0x67, 0, 0, 0, 0, 0, 0, 0]
          ++ Config.macCompute 1 ⟨0, 0, 0, 0x0C⟩ [7, 0x70, 0x6F, 0x6E, 0x67, 0, 0, 0, 0, 0, 0, 0]) := rfl

/-! ### Witnesses: states and operands that meet the hypotheses of the obligations -/

theorem witness_idle_inv : Inv (idle cfgA) ∧ Inv (idle cfgB) := by
  constructor <;> constructor <;> (try unfold FrameClear) <;> decide

theorem witness_reading_inv : Inv (reading 4 [0, 0, 0]) := by constructor <;> (try unfold FrameClear) <;> decide

theorem witness_lengthRead_inv : Inv (lengthRead cfgA [0, 0, 0]) := by constructor <;> (try unfold FrameClear) <;> decide

theorem witness_bodyRead_inv : Inv (bodyRead cfgA 5 [4, 1, 2, 3]) := by constructor <;> (try unfold FrameClear) <;> decide

theorem witness_macRead_inv : Inv (macRead [0, 0, 0]) := by constructor <;> (try unfold FrameClear) <;> decide

theorem witness_dead_inv : Inv deadState := by constructor <;> (try unfold FrameClear) <;> decide

/-- A reset behind an event no read waits for, and behind a command while a read is outstanding and a CFG. -/
theorem witness_resetStep :
    (∀ l ∈ [Line.event 3], lineStep { deadState with script := [.event 3, .reset] } l = none)
      ∧ (∀ l ∈ [Line.command 3, .config cfgB],
          lineStep { reading 4 [] with script := [.command 3, .config cfgB, .reset] } l = none)
      ∧ inputsAfter [.command 3, .config cfgB] cfgA = cfgB
      ∧ stillOffered [.command 3, .config cfgB] = [.command 3] := by
  decide

theorem witness_commandWords :
    0x1FFFFFFFF#33 &&& 0x100000000#33 = 0x100000000#33 ∧ 0x0FFFFFFFF#33 &&& 0x100000000#33 = 0#33 := by decide

theorem witness_eventWords :
    0x0FF#10 &&& 0x300#10 = 0x000#10 ∧ 0x1FF#10 &&& 0x300#10 = 0x100#10 ∧ 0x2FF#10 &&& 0x300#10 = 0x200#10
      ∧ 0x3FF#10 &&& 0x300#10 = 0x300#10 := by decide

theorem witness_wireFields : decodeWire (encodeWire ping8m) = .ok ping8m := by decide

theorem witness_decodeOfEncode :
    (Instr.frame ping8m).wf = true ∧ encode (.frame ping8m) = some (.wire (encodeWire ping8m))
      ∧ encode (.readExact 0xFFFFFFFF) = some (.command 0x0FFFFFFFF#33)
      ∧ encode (.tErr 3) = some (.event 0x203#10) := by decide

theorem witness_responseHeader : (List.replicate (2 ^ 32 - 1) (0 : Byte)).length < 2 ^ 32 := by
  rw [List.length_replicate]; omega

/-- A command that waits, a CFG, then each kind of line that can be taken. -/
theorem witness_stepRuns :
    (∀ l ∈ [Line.command 3, .config cfgB], lineStep (reading 4 []) l = none) ∧ (reading 4 []).tReady = true
      ∧ (∀ l ∈ [Line.event 3, .frame ping], lineStep (idle cfgA) l = none) ∧ (idle cfgA).cmdReady = true
      ∧ lineStep (idle cfgA) (.command 3) ≠ none
      ∧ decode (.command 3) = .ok (.readExact 3) ∧ decode (.event 3) = .ok (.tByte 3) := by decide

/-- A wait, and a step of each of the three kinds. -/
theorem witness_stepKinds :
    step (idle cfgA) = .next (idle cfgA)
      ∧ (∃ t, step { reading 4 [] with script := [.reset] } = .next t)
      ∧ (∃ t, step { idle cfgA with script := [.command 3] } = .next t)
      ∧ (∃ t, step { reading 4 [] with script := [.event 3] } = .next t)
      ∧ ∃ t, step { reading 4 [] with script := [.frame ping] } = .next t :=
  ⟨rfl, ⟨_, rfl⟩, ⟨_, rfl⟩, ⟨_, rfl⟩, ⟨_, rfl⟩⟩

theorem witness_waiting :
    Inv { reading 4 [0, 0, 0] with script := [.command 3, .config cfgB] } ∧ (reading 4 [0, 0, 0]).rdActive = true := by
  constructor
  · constructor <;> (try unfold FrameClear) <;> decide
  · decide

theorem witness_readExactStarts :
    (idle cfgA).cmd = .none ∧ (idle cfgA).fst ≠ .failed ∧ (1 : Word) ≠ 0 ∧ (1 : Word).toNat ≤ (idle cfgA).bufCap
      ∧ (0xFFFFFFFF : Word).toNat ≤ (idle cfgA).bufCap := by decide

theorem witness_decodeFrameSamples :
    (idle cfgB).cmd = .none ∧ (idle cfgB).fst ≠ .failed
      ∧ (idle cfgB).cfg.maxFrameSize.toNat ≤ ({ idle cfgB with bufCap := 1024 } : State).bufCap
      ∧ (idle cfgB).cfg.macActive = true ∧ (idle cfgB).cfg.macLength.toNat ≤ 1024 := by decide

/-- V10: the capacity boundary, both sides, for each refusal. -/
theorem witness_refused :
    ¬ 1024 < (1024 : Word).toNat ∧ 1024 < (1025 : Word).toNat
      ∧ ({ idle cfgB with bufCap := 1023 } : State).bufCap < cfgB.maxFrameSize.toNat
      ∧ (cfgOf 5 8 true 9).macActive = true ∧ 8 < (cfgOf 5 8 true 9).macLength.toNat
      ∧ cfgWellFormed 1024 cfgB = true ∧ cfgWellFormed 1023 cfgB = false
      ∧ cfgWellFormed 8 (cfgOf 5 8 true 9) = false := by decide

theorem witness_notEnabled : (reading 3 [1]).cmd ≠ .none ∧ (idle cfgA).tReady = false := by decide

theorem witness_dead : deadState.cmd = .none ∧ deadState.fst = .failed := by decide

theorem witness_tByte :
    (reading 4 [0, 0, 0]).tReady = true ∧ (reading 4 [0, 0, 0]).rdK + 1 = (reading 4 [0, 0, 0]).rdN
      ∧ (reading 4 [0, 0]).tReady = true ∧ (reading 4 [0, 0]).rdK + 1 ≠ (reading 4 [0, 0]).rdN
      ∧ (idle cfgA).tReady = false := by decide

/-- The next byte is the last, in a direct read and in each read of a frame. -/
theorem witness_atLastByte :
    (reading 1 []).AtLastByte ∧ (lengthRead cfgA [0, 0, 0]).AtLastByte ∧ (bodyRead cfgA 5 [4, 1, 2, 3]).AtLastByte
      ∧ (macRead [0, 0, 0]).AtLastByte := by
  unfold State.AtLastByte; decide

/-- The four ways in which `CS` is left, and the one in which it is open. -/
theorem witness_cipherState :
    (reading 2 []).cmd ≠ .decodeFrame ∧ (macRead []).fst ≠ .awaitingBody
      ∧ (bodyRead cfgA 5 [4]).lCfg.cipherActive = false ∧ (bodyRead cfgA 5 []).rdK = 0
      ∧ (bodyRead { cfgA with cipherActive := true } 5 [4]).tReady = true := by decide

/-- Each kind of event has a next state. -/
theorem witness_transportEvents :
    (∃ t, exec (.tByte 0) (reading 4 []) = .next t) ∧ (∃ t, exec .tEos (reading 4 []) = .next t)
      ∧ (∃ t, exec (.tErr 3) (reading 4 []) = .next t) ∧ ∃ t, exec .tErrReserved (reading 4 []) = .next t :=
  ⟨⟨_, rfl⟩, ⟨_, rfl⟩, ⟨_, rfl⟩, ⟨_, rfl⟩⟩

/-- W2, W4, the two bounds themselves, and a length of 0 that a minimum of 0 lets through. -/
theorem witness_lengthBounds :
    (be32 (bytes4OfList ((lengthRead cfgA []).plain [0, 0, 0, 4]))).toNat < cfgA.minFrameSize.toNat
      ∧ cfgA.maxFrameSize.toNat < (be32 (bytes4OfList ((lengthRead cfgA []).plain [0, 0, 4, 1]))).toNat
      ∧ (be32 (bytes4OfList ((lengthRead cfgA []).plain [0, 0, 4, 0]))).toNat = cfgA.maxFrameSize.toNat
      ∧ (be32 (bytes4OfList ((lengthRead cfgA []).plain [0, 0, 0, 5]))).toNat = cfgA.minFrameSize.toNat
      ∧ (lengthRead cfgA []).rdN = 4 ∧ (lengthRead cfgA []).rdK = 0 ∧ (lengthRead cfgA []).abuf = []
      ∧ cfgWellFormed (lengthRead cfgA []).bufCap cfgA = true
      ∧ (be32 (bytes4OfList ((lengthRead cfgZ []).plain [0, 0, 0, 0]))).toNat = cfgZ.minFrameSize.toNat := by decide

/-- W11. -/
theorem witness_lengthZero :
    (lengthRead cfgZ [0, 0, 0]).AtLastByte ∧ (lengthRead cfgZ [0, 0, 0]).lCfg.minFrameSize = 0
      ∧ be32 (bytes4OfList ((lengthRead cfgZ [0, 0, 0]).plain ([0, 0, 0] ++ [0]))) = 0 := by
  unfold State.AtLastByte; decide

/-- W7's and W8's padding, and a length register of 0. -/
theorem witness_wrongPadding :
    ((bodyRead cfgA 5 [3, 1, 2, 3]).plain ([3, 1, 2, 3] ++ [4])).headD 0 = 3
      ∧ ((bodyRead cfgA 5 [5, 1, 2, 3]).plain ([5, 1, 2, 3] ++ [4])).headD 0 = 5
      ∧ (bodyRead cfgA 5 [5, 1, 2, 3]).pktLen.toNat < 1 + (5 : Byte).toNat
      ∧ ({ bodyRead cfgZ 1 [] with pktLen := 0 } : State).tReady = true := by decide

/-- W1's body with no MAC, with a MAC, and with a MAC of no bytes. -/
theorem witness_goodBody :
    4 ≤ (((bodyRead cfgA 5 [4, 1, 2, 3]).plain ([4, 1, 2, 3] ++ [4])).headD 0).toNat
      ∧ 1 + (4 : Byte).toNat ≤ (bodyRead cfgA 5 [4, 1, 2, 3]).pktLen.toNat
      ∧ (bodyRead cfgA 5 []).lCfg.macActive = false
      ∧ (bodyRead cfgB 5 []).lCfg.macActive = true ∧ (bodyRead cfgB 5 []).lCfg.macLength ≠ 0
      ∧ (bodyRead (cfgOf 5 1024 true 0) 5 []).lCfg.macActive = true
      ∧ (bodyRead (cfgOf 5 1024 true 0) 5 []).lCfg.macLength = 0 := by decide

theorem witness_commit :
    (idle cfgA).rdActive = false ∧ (idle cfgA).rdN = 0 ∧ (idle cfgA).rdK = 0 ∧ (idle cfgA).abuf = [] := by decide

/-- A step that commits, one that resets, and one that does neither. -/
theorem witness_steps :
    Inv { bodyRead cfgA 5 [4, 1, 2, 3] with script := [.event 4] }
      ∧ (next? (step { bodyRead cfgA 5 [4, 1, 2, 3] with script := [.event 4] })).map (fun s => s.seq) = some 1
      ∧ (next? (step { deadState with script := [.reset] })).map (fun s => s.seq) = some 0
      ∧ (next? (step { deadState with script := [.command 0] })).map (fun s => s.seq) = some 0 := by
  refine ⟨?_, by decide, by decide, by decide⟩
  constructor <;> (try unfold FrameClear) <;> decide

/-- Each event and a byte that raise a failure from a direction that is alive. -/
theorem witness_failures :
    (reading 4 []).tReady = true ∧ (reading 4 []).fst ≠ .failed
      ∧ (next? (exec (.tByte 4) (lengthRead cfgA [0, 0, 0]))).map (fun s => s.fst) = some .failed
      ∧ (next? (exec .tEos (reading 4 []))).map (fun s => s.fst) = some .failed
      ∧ (next? (exec (.tErr 1) (reading 4 []))).map (fun s => s.fst) = some .failed
      ∧ (next? (exec .tErrReserved (reading 4 []))).map (fun s => s.fst) = some .failed := by decide

/-- A command that goes on, one that ends, one that starts and one answered at once. -/
theorem witness_responses :
    (next? (exec (.tByte 0) (reading 4 []))).map (fun s => s.cmd) = some .readExact
      ∧ (next? (exec (.tByte 0) (reading 1 []))).map (fun s => s.cmd) = some .none
      ∧ (next? (exec (.readExact 2) (idle cfgA))).map (fun s => s.cmd) = some .readExact
      ∧ (next? (exec (.readExact 0) (idle cfgA))).map (fun s => s.cmd) = some .none := by decide

/-- FRAME in a frame decode and in a direct read: each reads with some byte of it first. -/
theorem witness_frameBytes :
    (lengthRead cfgA []).tReady = true ∧ (reading 1 []).tReady = true
      ∧ (lengthRead cfgA []).frameBytes ping = encodeWire ping ∧ (reading 1 []).frameBytes ping = encodeWire ping := by
  decide

theorem witness_buffers : 4 ≤ (macRead [0, 0, 0]).bufCap ∧ (macRead [0, 0, 0]).body.length = 5 := by decide

theorem witness_blockSize :
    State.forgetBlockSize (idle { cfgA with blockSize := 16 }) = State.forgetBlockSize (idle cfgA)
      ∧ idle { cfgA with blockSize := 16 } ≠ idle cfgA := by decide

/-- The whole-command statements: the idle state, the configuration and a frame, with no MAC and with one. -/
theorem witness_wholeFrame :
    (idle cfgA).Idle ∧ (idle cfgB).Idle ∧ cfgWellFormed (idle cfgA).bufCap (idle cfgA).cfg = true
      ∧ cfgWellFormed (idle cfgB).bufCap (idle cfgB).cfg = true ∧ ping.wf = true ∧ ping8m.wf = true
      ∧ cfgB.minFrameSize.toNat ≤ ping8m.packetLength.toNat ∧ ping8m.packetLength.toNat ≤ cfgB.maxFrameSize.toNat
      ∧ ping8m.mac.length = cfgB.macLength.toNat ∧ cfgA.cipherActive = false ∧ cfgB.cipherActive = false := by
  unfold State.Idle; decide

/-- The hidden registers: two states that differ in them alone. -/
theorem witness_hidden : (reading 4 [0]).observe = { reading 4 [0, 0] with cur := 1 }.observe
    ∧ reading 4 [0] ≠ { reading 4 [0, 0] with cur := 1 } := by decide

/-- `L_CFG` outside a frame decode: an idle framer that accepts a DECODE_FRAME, and a direct read. -/
theorem witness_lCfg :
    Inv { idle cfgA with script := [.command 0x100000000#33] } ∧ (idle cfgA).cmd ≠ .decodeFrame
      ∧ (next? (step { idle cfgA with script := [.command 0x100000000#33] })).map (fun t => t.cmd) = some .decodeFrame
      ∧ (reading 4 [0, 0, 0]).cmd ≠ .decodeFrame := by
  refine ⟨?_, by decide, by decide, by decide⟩
  constructor <;> (try unfold FrameClear) <;> decide

/-- Bytes that decrypt to something, and a function that inverts the two calls at a length. -/
theorem witness_encrypt :
    Encryptable [] (decryptFrame [] [1, 2, 3, 4, 5]).2
      ∧ ∀ x : List Byte, x.length = 0 → (id x).length = 0 ∧ (decryptFrame [] (id x)).2 = x := by
  refine ⟨⟨[1, 2, 3, 4, 5], by simp [decryptFrame, decrypt], rfl⟩, ?_⟩
  intro x h
  have : x = [] := List.length_eq_zero_iff.1 h
  subst this
  exact ⟨rfl, rfl⟩

/-- The encoder's requirement at its least and at its greatest padding, and a FRAME with the MAC computed. -/
theorem witness_reference :
    4 ≤ (4 : Byte).toNat ∧ ping.padding.length = (4 : Byte).toNat ∧ 1 + ping.payload.length + (4 : Byte).toNat < 2 ^ 32
      ∧ (List.replicate 255 (0 : Byte)).length = (255 : Byte).toNat ∧ ¬ 4 ≤ (3 : Byte).toNat ∧ ping.wf = true
      ∧ ping.mac = senderMac cfgA 0 (be32bytes ping.packetLength) (frameBody ping) := by
  refine ⟨by decide, by decide, by decide, by rw [List.length_replicate]; rfl, by decide, by decide, by decide⟩

theorem witness_roundTrip :
    Inv { idle cfgA with script := [.command 0x1FFFFFFFF#33, .frame ping] }
      ∧ Inv { idle cfgA with
          script := .command 0x1FFFFFFFF#33 :: (encodeWire ping).map fun b => Line.event (byteEvent b) }
      ∧ referenceFrame cfgA 0 ping.payload 4 ping.padding = ping
      ∧ decodeCommand 0x1FFFFFFFF#33 = .decodeFrame
      ∧ encodeFrame cfgA 0 [] ping.payload 4 ping.padding = some (encodeWire ping)
      ∧ cfgA.macActive = false ∧ cfgA.cipherActive = false
      ∧ cfgA.minFrameSize.toNat ≤ ping.packetLength.toNat ∧ ping.packetLength.toNat ≤ cfgA.maxFrameSize.toNat := by
  refine ⟨?_, ?_, by decide, by decide, by decide, by decide, by decide, by decide, by decide⟩
  · constructor <;> (try unfold FrameClear) <;> decide
  · constructor <;> (try unfold FrameClear) <;> decide

end Sys2Proof.Tests
end

/-! ### The three kinds of step (00_scope.md R7) -/

namespace Sys2Proof.Machine

/-- Which line each kind of step comes from: an event's word is offered by itself or as the first byte of
a FRAME (R88). -/
theorem lineStep_source {s : State} {l : Line} {k : StepKind} {left : List Line}
    (h : lineStep s l = some (k, left)) :
    (k = .reset ∧ l = .reset) ∨ (∃ w, k = .command w ∧ l = .command w)
      ∨ ∃ e, k = .event e
          ∧ (l = .event e ∨ ∃ f b bs, l = .frame f ∧ s.frameBytes f = b :: bs ∧ e = byteEvent b) := by
  cases l with
  | reset => cases h; exact .inl ⟨rfl, rfl⟩
  | config c => cases h
  | command w =>
    obtain ⟨-, hk⟩ := Option.ite_none_right_eq_some.1 h
    cases hk
    exact .inr (.inl ⟨w, rfl, rfl⟩)
  | event e =>
    obtain ⟨-, hk⟩ := Option.ite_none_right_eq_some.1 h
    cases hk
    exact .inr (.inr ⟨e, rfl, .inl rfl⟩)
  | frame f =>
    obtain ⟨hr, -⟩ := Option.ite_none_right_eq_some.1 h
    obtain ⟨b, bs, hf⟩ := frameBytes_cons s f
    rw [lineStep_frame hr hf] at h
    cases h
    exact .inr (.inr ⟨_, rfl, .inr ⟨f, b, bs, rfl, hf, rfl⟩⟩)

/-- A command consumes no byte (R37). -/
theorem exec_command_cur {i : Instr} {s t : State} (hi : (∃ n, i = .readExact n) ∨ i = .decodeFrame)
    (h : exec i s = .next t) : t.cur = s.cur := by
  obtain ⟨-, rfl⟩ | ⟨-, c, r, -, rfl⟩ | ⟨-, -, n, -, -, -, rfl⟩ | ⟨-, -, -, -, rfl⟩ := command_cases hi h
  · rfl
  · exact respond_cur c r s
  · rfl
  · rfl

/-- A failure of the transport consumes no byte (R105, R106). -/
theorem takeFailure_cur (f : Failure) (s : State) : (takeFailure f s).cur = s.cur := by
  rw [takeFailure_eq]
  rcases loseCipher_cases s with h | ⟨-, -, -, -, h⟩ <;> rw [h] <;> rfl

/-- The operation an event word selects consumes one byte or none (R37, R51). -/
theorem exec_event_cur {e : BitVec 10} {s t : State} (hr : s.tReady = true)
    (h : exec (decodeEvent e) s = .next t) : t.cur = s.cur + 1 ∨ t.cur = s.cur := by
  rcases decodeEvent_cases e with ⟨b, hd⟩ | hd | ⟨k, hd⟩ | hd <;>
    simp only [hd, exec, execTByte, execTEos, execTErr, execTErrReserved, hr, if_true,
      Host.Outcome.next.injEq] at h <;> subst h
  · exact .inl (takeByte_cur b s)
  · exact .inr (takeFailure_cur _ s)
  · exact .inr (takeFailure_cur _ s)
  · exact .inr (takeFailure_cur _ s)

/-- Settles O54: the inversion of `step` names the kind, `lineStep_source` the line it was offered by, and
the cursor is what a command or an event makes of it. -/
theorem everyStepIsOneOfTheThreeKinds : Obligations.EveryStepIsOneOfTheThreeKinds := by
  intro s t h
  obtain ⟨hn, rfl⟩ | ⟨u, hu, hk⟩ := step_cases h
  · exact .inl ⟨takeLine_none_iff.1 hn, rfl⟩
  · obtain ⟨l, hl, left, hs⟩ := takeLine_some hu
    refine .inr ⟨u.inputs, u.offered, ?_⟩
    have hsrc := lineStep_source hs
    obtain ⟨hk, ht⟩ | ⟨w, hk, hr, hx⟩ | ⟨e, hk, hr, hx⟩ := hk <;> rw [hk] at hsrc
    · obtain ⟨-, rfl⟩ | ⟨_, hc, -⟩ | ⟨_, hc, -⟩ := hsrc
      · exact .inl ⟨hl, ht⟩
      · cases hc
      · cases hc
    · obtain ⟨hc, -⟩ | ⟨_, hc, rfl⟩ | ⟨_, hc, -⟩ := hsrc <;> cases hc
      exact .inr (.inl ⟨w, hl, hr, hx, exec_command_cur (s := s.atStep u) (decodeCommand_cases w) hx⟩)
    · obtain ⟨hc, -⟩ | ⟨_, hc, -⟩ | ⟨_, hc, hline⟩ := hsrc <;> cases hc
      have hcur : t.cur = s.cur + 1 ∨ t.cur = s.cur := exec_event_cur (s := s.atStep u) hr hx
      refine .inr (.inr ⟨e, ?_, hr, hx, by omega, by omega⟩)
      obtain rfl | ⟨f, b, bs, rfl, hf, he⟩ := hline
      · exact .inl hl
      · exact .inr ⟨f, b, bs, hl, hf, he⟩

end Sys2Proof.Machine

/-! ### The length field (30_encoding.md R72) -/

namespace Sys2Proof

/-- Settles O6: the value is `be32_toNat`; the four bytes of `v` are `be32bytes v`, and only those, since
`be32bytes` is the inverse of `be32` on both sides. -/
theorem lengthFieldIsBigEndian : Obligations.LengthFieldIsBigEndian := by
  refine ⟨be32_toNat, fun v => ⟨be32bytes v, be32_be32bytes v, fun b hb => ?_⟩⟩
  calc b = be32bytes (be32 b) := (be32bytes_be32 b).symm
    _ = be32bytes v := by rw [hb]

end Sys2Proof

/-! ### A byte for an outstanding read (40_exact_reader.md R104) -/

namespace Sys2Proof.Machine

/-- A word with bits 9:8 clear is the word of its low byte (R80). -/
theorem zero_append_eq_byteEvent (d : Byte) : 0#2 ++ d = byteEvent d :=
  (BitVec.setWidth_eq_append (by decide)).symm

/-- While a read is outstanding, T_BYTE is the byte taken (R52, R104). -/
theorem exec_tByte_of_tReady (b : Byte) {s : State} (h : s.tReady = true) :
    exec (.tByte b) s = .next (takeByte b s) :=
  congrArg Host.Outcome.next (if_pos h)

/-- Settles O19: while `t_ready`, T_BYTE is `takeByte`, which collects a byte that is not the last, completes
the read with the one that is, and counts it in `CUR` either way. -/
theorem tByteIsCollectedAndCompletesTheRead : Obligations.TByteIsCollectedAndCompletesTheRead := by
  intro b s
  refine ⟨fun d => ?_, fun hr => ⟨rdK_succ_toNat_lt hr, fun hne => ?_, fun hl => ?_, fun t ht => ?_⟩⟩
  · rw [zero_append_eq_byteEvent, decodeEvent_byteEvent]
  · rw [exec_tByte_of_tReady b hr, takeByte_collects hne]
  · rw [exec_tByte_of_tReady b hr, takeByte_completes hl]
  · rw [exec_tByte_of_tReady b hr] at ht
    cases ht
    exact takeByte_cur b s

end Sys2Proof.Machine

/-! ### The length field of a frame (42_frame_assembler.md R133 to R135) -/

namespace Sys2Proof.Machine

/-- The fourth length byte is the length stage on the four bytes, `CUR` 1 higher (R104, R107, R132). -/
theorem exec_lastLengthByte {b : Byte} {s : State} (h : s.AtLastByte) (hc : s.cmd = .decodeFrame)
    (hf : s.fst = .awaitingLength) :
    exec (.tByte b) s = .next (lengthStage (s.abuf ++ [b]) (clearRead { s with cur := s.cur + 1 })) := by
  rw [exec_lastByte h hc, continueFrame_length (s := { s with cur := s.cur + 1 }) hf]

/-- The length stage with a length of 0 within the bounds is the body stage on no bytes (R135);
`lengthStage_empty` says what that comes to. -/
theorem lengthStage_zero {data : List Byte} {s : State}
    (h : lengthInBounds s.lCfg (be32 (bytes4OfList (s.plain data))) = true)
    (h0 : be32 (bytes4OfList (s.plain data)) = 0) :
    lengthStage data (clearRead s) =
      bodyStage [] (clearRead { s with cs := s.csAfter data, fst := .awaitingBody,
                                       lenf := bytes4OfList (s.plain data), pktLen := 0 }) := by
  have h0' : be32 (bytes4OfList ((clearRead s).plain data)) = 0 := h0
  rw [lengthStage_eq]
  refine (if_pos h).trans ?_
  rw [h0']
  exact startRead_zero _ _

/-- A length is out of bounds exactly where it is below the minimum or above the maximum (R134). -/
theorem lengthInBounds_eq_false_iff (c : Cfg) (len : Word) :
    lengthInBounds c len = false ↔ len.toNat < c.minFrameSize.toNat ∨ c.maxFrameSize.toNat < len.toNat := by
  rw [← Bool.not_eq_true, lengthInBounds_toNat]
  omega

theorem csAfter_of_inactive {s : State} (h : s.lCfg.cipherActive = false) (data : List Byte) :
    s.csAfter data = s.cs := by
  simp [State.csAfter, h]

theorem plain_of_inactive {s : State} (h : s.lCfg.cipherActive = false) (data : List Byte) :
    s.plain data = data := by
  simp [State.plain, h]

/-- Settles O26: the fourth length byte is the length stage, which has one equation for each outcome of the
bounds check. -/
theorem lengthStageStartsTheBodyReadOrFails : Obligations.LengthStageStartsTheBodyReadOrFails := by
  intro b s hl hc hf
  rw [exec_lastLengthByte hl hc hf]
  refine ⟨fun hmin hmax hne => ?_, fun hmin hmax h0 => ?_, fun hout => ?_, fun hp => ?_⟩
  · exact congrArg _ (lengthStage_startsBody ((lengthInBounds_toNat _ _).2 ⟨hmin, hmax⟩) hne)
  · exact congrArg _ (lengthStage_zero ((lengthInBounds_toNat _ _).2 ⟨hmin, hmax⟩) h0)
  · exact congrArg _ (lengthStage_outOfBounds ((lengthInBounds_eq_false_iff _ _).2 hout))
  · exact ⟨csAfter_of_inactive hp _, plain_of_inactive hp _⟩

/-- A read that has collected nothing is one that has just started (R102). -/
theorem eq_readingWith {s : State} {n : Word} (h1 : s.rdActive = true) (h2 : s.rdN = n) (h3 : s.rdK = 0)
    (h4 : s.abuf = []) : s = s.readingWith n := by
  cases s
  simp_all [State.readingWith]

/-- The four bytes of a length read that has just begun are the length stage on them, `CUR` 4 higher. -/
theorem offerEvents_lengthField (b0 b1 b2 b3 : Byte) (E : List TEvent) {s : State} (hc : s.cmd = .decodeFrame)
    (hf : s.fst = .awaitingLength) (hs : s = s.readingWith 4) :
    offerEvents (.byte b0 :: .byte b1 :: .byte b2 :: .byte b3 :: E) s
      = offerEvents E (lengthStage [b0, b1, b2, b3] (clearRead { s with cur := s.cur + 4 })) := by
  have hfull := offerEvents_full (u := s) (n := 4) (l := [b0, b1, b2, b3]) (E := E) (by decide) rfl
  rw [← hs, readDone_frame (by exact hc), continueFrame_length (by exact hf)] at hfull
  exact hfull

/-- A dead direction consumes no event (R40, R52). -/
theorem offerEvents_deadWith (E : List TEvent) (s : State) (c : Command) (r : FailureRecord) :
    offerEvents E (s.deadWith c r) = (s.deadWith c r, E) :=
  offerEvents_blocked (tReady_false_of_inactive rfl)

/-- Settles O25: the four bytes are the length stage; where it ends the direction the events after them stay,
and a length inside the bounds is at most the maximum, which a well-formed configuration keeps within
`BUF_CAP`. -/
theorem lengthOutOfBoundsStopsBeforeTheBody : Obligations.LengthOutOfBoundsStopsBeforeTheBody := by
  intro b0 b1 b2 b3 E s hc hf hact hn hk ha lenf len u
  rw [offerEvents_lengthField b0 b1 b2 b3 E hc hf (eq_readingWith hact hn hk ha)]
  refine ⟨fun hout => ?_, fun hin => ?_⟩
  · have hb := (lengthInBounds_eq_false_iff s.lCfg (be32 lenf)).2 hout
    rw [lengthStage_outOfBounds (s := { s with cur := s.cur + 4 }) hb]
    exact offerEvents_deadWith E _ _ _
  · have hb : lengthInBounds s.lCfg (be32 lenf) = true := by
      rw [← Bool.not_eq_false, lengthInBounds_eq_false_iff]
      exact hin
    refine ⟨fun hne => ?_, fun h0 => ?_, fun hw => ?_⟩
    · have hne' : be32 lenf ≠ 0 := fun h => hne (congrArg BitVec.toNat h)
      rw [lengthStage_startsBody (s := { s with cur := s.cur + 4 }) hb hne']
      rfl
    · rw [lengthStage_empty (s := { s with cur := s.cur + 4 }) hb (BitVec.eq_of_toNat_eq h0)]
      exact offerEvents_deadWith E _ _ _
    · exact ((lengthInBounds_toNat _ _).1 hb).2.trans ((cfgWellFormed_iff _ _).1 hw).1

end Sys2Proof.Machine

/-! ### Commit (42_frame_assembler.md R145) -/

namespace Sys2Proof.Machine

/-- Settles O31: with no read outstanding commit ends in `committedWith`, whose fields say the rest. -/
theorem commitAnswersThePayloadAndIsIdle : Obligations.CommitAnswersThePayloadAndIsIdle := by
  intro s hact hn hk ha
  have hcommit : commit s = s.committedWith (slice s.body 1 (s.pktLen.toNat - s.padLen.toNat)) := by
    rw [← commit_clearRead, clearRead_of_noRead hact hn hk ha]
  rw [hcommit]
  exact ⟨rfl, (cmdReady_iff _).2 rfl, tReady_false_of_inactive rfl, ⟨rfl, rfl⟩, rfl, rfl, rfl⟩

end Sys2Proof.Machine

/-! ### A dead direction (60_exceptions.md R174) -/

namespace Sys2Proof.Machine

/-- All that a command can do to a dead direction: nothing, or an answer with nothing else changed (R175). -/
theorem exec_command_of_dead {i : Instr} {s t : State} (hi : (∃ n, i = .readExact n) ∨ i = .decodeFrame)
    (hd : s.fst = .failed) (h : exec i s = .next t) : t = s ∨ ∃ c r, t = respond c r s := by
  obtain ⟨-, ht⟩ | ⟨-, c, r, -, ht⟩ | ⟨-, halive, -⟩ | ⟨-, halive, -⟩ := command_cases hi h
  · exact .inl ht
  · exact .inr ⟨c, r, ht⟩
  · exact absurd hd halive
  · exact absurd hd halive

/-- All that an operation can do to a dead direction: nothing, an answer with nothing else changed, or
SEQ_NEXT's increment. No read is outstanding there, so an event or a frame is not consumed (R40, R52). -/
theorem exec_of_dead {i : Instr} {s t : State} (hI : Inv s) (hd : s.fst = .failed) (h : exec i s = .next t) :
    t = s ∨ (∃ c r, t = respond c r s) ∨ t = (seqNext s).2 := by
  have hr : s.tReady = false := not_tReady_of_inv hI (hI.failedClear hd).1
  cases i with
  | readExact n => exact (exec_command_of_dead (.inl ⟨n, rfl⟩) hd h).imp_right .inl
  | decodeFrame => exact (exec_command_of_dead (.inr rfl) hd h).imp_right .inl
  | tByte b => exact .inl (transport_blocked hr (.inl ⟨b, rfl⟩) h)
  | tEos => exact .inl (transport_blocked hr (.inr (.inl rfl)) h)
  | tErr k => exact .inl (transport_blocked hr (.inr (.inr (.inl ⟨k, rfl⟩))) h)
  | tErrReserved => exact .inl (transport_blocked hr (.inr (.inr (.inr (.inl rfl)))) h)
  | seqNext => cases h; exact .inr (.inr rfl)
  | frame f => exact .inl (transport_blocked hr (.inr (.inr (.inr (.inr ⟨f, rfl⟩)))) h)

/-- All that a step can do to a dead direction: no line taken, a reset, or an accepted command, which leaves
it as it is or answers. An event is no step there, and the inputs that CFG lines drive are no register. -/
theorem step_of_dead {s t : State} (hI : Inv s) (hd : s.fst = .failed) (h : step s = .next t) :
    t = s ∨ ∃ u, takeLine s s.cfg s.script = some u
      ∧ ((u.kind = .reset ∧ t = resetStep (s.atStep u)) ∨ t = s.atStep u
        ∨ ∃ c r, t = respond c r (s.atStep u)) := by
  obtain ⟨-, ht⟩ | ⟨u, hu, hreset | ⟨w, -, -, hx⟩ | ⟨e, -, hr, -⟩⟩ := step_cases h
  · exact .inl ht
  · exact .inr ⟨u, hu, .inl hreset⟩
  · exact .inr ⟨u, hu, .inr (exec_command_of_dead (s := s.atStep u) (decodeCommand_cases w) hd hx)⟩
  · exact absurd hd (alive_of_tReady hI hr)

/-- Settles O34: neither an answer nor SEQ_NEXT writes `FST` or the record, and of the steps of a dead
direction only reset writes any of the four registers. -/
theorem nothingButResetLeavesFailed : Obligations.NothingButResetLeavesFailed := by
  intro s hI hd
  refine ⟨fun i t h => ?_, fun t h => ?_⟩
  · obtain rfl | ⟨c, r, rfl⟩ | rfl := exec_of_dead hI hd h
    · exact ⟨hd, rfl⟩
    · exact ⟨hd, respond_err c r s⟩
    · exact ⟨hd, seqNext_snd_err s⟩
  · obtain rfl | ⟨u, hu, ⟨hk, rfl⟩ | rfl | ⟨c, r, rfl⟩⟩ := step_of_dead hI hd h
    · exact .inl ⟨hd, rfl, rfl, rfl⟩
    · exact .inr ⟨rfl, rfl, u, hu, hk⟩
    · exact .inl ⟨hd, rfl, rfl, rfl⟩
    · exact .inl ⟨hd, rfl, rfl, rfl⟩

end Sys2Proof.Machine

/-! ### Decoding what the encoder gives (30_encoding.md R80 to R83, R70) -/

namespace Sys2Proof

/-- SEQ_NEXT is the one operation with no encoding (R83). -/
theorem encode_eq_none_iff (i : Instr) : encode i = none ↔ i = .seqNext := by
  cases i <;> simp [encode]

theorem decode_of_encode {i : Instr} (h : i.wf = true) {c : Code} (hc : encode i = some c) :
    decode c = .ok i := by
  cases i with
  | readExact n => exact Laws.EncodeDecode.readExact n h c hc
  | decodeFrame => exact Laws.EncodeDecode.decodeFrame h c hc
  | tByte b => exact Laws.EncodeDecode.tByte b h c hc
  | tEos => exact Laws.EncodeDecode.tEos h c hc
  | tErr k => exact Laws.EncodeDecode.tErr k h c hc
  | tErrReserved => exact Laws.EncodeDecode.tErrReserved h c hc
  | seqNext => exact Laws.EncodeDecode.seqNext h c hc
  | frame f => exact Laws.EncodeDecode.frame f h c hc

/-- Settles O8: one lemma for each operation. -/
theorem decodeOfEncodeIsTheOperation : Obligations.DecodeOfEncodeIsTheOperation :=
  fun i h => ⟨encode_eq_none_iff i, fun _ hc => decode_of_encode h hc⟩

end Sys2Proof

/-! ### What commands and events do, by kind (10_state.md R40; 40_exact_reader.md R101, R104 to R106) -/

namespace Sys2Proof.Machine

/-- An event that is not a byte, while a read is outstanding, is a failure of the transport (R105, R106). -/
theorem exec_tEos_of_tReady {s : State} (h : s.tReady = true) :
    exec .tEos s = .next (takeFailure (.shortRead s.rdN s.rdK) s) :=
  congrArg Host.Outcome.next (if_pos h)

theorem exec_tErr_of_tReady (k : BitVec 2) {s : State} (h : s.tReady = true) :
    exec (.tErr k) s = .next (takeFailure (.transportError k) s) :=
  congrArg Host.Outcome.next (if_pos h)

theorem exec_tErrReserved_of_tReady {s : State} (h : s.tReady = true) :
    exec .tErrReserved s = .next (takeFailure (.transportError 0) s) :=
  congrArg Host.Outcome.next (if_pos h)

/-- All that an event can do to an outstanding read: a byte is taken, or the transport fails with a record
whose fields belong to its code. -/
theorem event_cases {i : Instr} {s t : State}
    (hi : (∃ b, i = .tByte b) ∨ i = .tEos ∨ (∃ k, i = .tErr k) ∨ i = .tErrReserved) (hr : s.tReady = true)
    (h : exec i s = .next t) :
    (∃ b, i = .tByte b ∧ t = takeByte b s)
      ∨ (∀ b, i ≠ .tByte b) ∧ ∃ f, RecordOk (failureRecord f) ∧ t = takeFailure f s := by
  obtain ⟨b, rfl⟩ | rfl | ⟨k, rfl⟩ | rfl := hi
  · rw [exec_tByte_of_tReady b hr] at h
    cases h
    exact .inl ⟨b, rfl, rfl⟩
  · rw [exec_tEos_of_tReady hr] at h
    cases h
    exact .inr ⟨by simp, _, recordOk_shortRead ((tReady_iff s).1 hr).2, rfl⟩
  · rw [exec_tErr_of_tReady k hr] at h
    cases h
    exact .inr ⟨by simp, _, recordOk_transport k, rfl⟩
  · rw [exec_tErrReserved_of_tReady hr] at h
    cases h
    exact .inr ⟨by simp, _, recordOk_transport 0, rfl⟩

/-! ### Every step keeps the invariants (10_state.md R45) -/

theorem exec_command_inv {i : Instr} {s t : State} (hi : (∃ n, i = .readExact n) ∨ i = .decodeFrame)
    (hI : Inv s) (h : exec i s = .next t) : Inv t := by
  obtain ⟨-, rfl⟩ | ⟨-, c, r, -, rfl⟩ | ⟨hc, hd, n, -, h0, hn, rfl⟩ | ⟨hc, hd, -, hw, rfl⟩ :=
    command_cases hi h
  · exact hI
  · exact respond_inv c r hI
  · obtain ⟨hf, hclear⟩ := hI.idle hc hd
    exact directRead_inv h0 hn hf hclear (err_clear_of_alive hI hd)
  · obtain ⟨hf, hclear⟩ := hI.idle hc hd
    exact lengthRead_inv hw hf hclear (err_clear_of_alive hI hd)

theorem exec_event_inv {i : Instr} {s t : State}
    (hi : (∃ b, i = .tByte b) ∨ i = .tEos ∨ (∃ k, i = .tErr k) ∨ i = .tErrReserved) (hr : s.tReady = true)
    (hI : Inv s) (h : exec i s = .next t) : Inv t := by
  obtain ⟨b, -, rfl⟩ | ⟨-, f, hf, rfl⟩ := event_cases hi hr h
  · exact takeByte_inv b hI hr
  · exact takeFailure_inv s hf

/-- Settles O39: a step is a wait, a reset, a command or an event, and each keeps the invariants. -/
theorem everyStepKeepsTheInvariants : Obligations.EveryStepKeepsTheInvariants := by
  intro s t hI h
  obtain ⟨-, rfl⟩ | ⟨u, -, ⟨-, rfl⟩ | ⟨c, -, -, hx⟩ | ⟨e, -, hr, hx⟩⟩ := step_cases h
  · exact hI
  · exact resetStep_inv _
  · exact exec_command_inv (decodeCommand_cases c) (atStep_inv u hI) hx
  · exact exec_event_inv (s := s.atStep u) (decodeEvent_cases e) hr (atStep_inv u hI) hx

end Sys2Proof.Machine

/-! ### What the invariants say of a resting state (10_state.md R40, R43, R45) -/

namespace Sys2Proof.Machine

/-- Settles O38: the reset state is idle with a clear record. -/
theorem resetStateMeetsTheInvariants : Obligations.ResetStateMeetsTheInvariants :=
  idle_inv rfl rfl rfl rfl rfl rfl ⟨rfl, rfl, rfl, rfl⟩ rfl

/-- Settles O1: `State.reset` is written with these values. -/
theorem resetRegistersHoldTheirResetValues : Obligations.ResetRegistersHoldTheirResetValues := by
  refine ⟨rfl, rfl, rfl, rfl, rfl, rfl, rfl, rfl, rfl, rfl, rfl, rfl, rfl, rfl, ?_, ?_⟩
  · exact (cmdReady_iff _).2 rfl
  · exact tReady_false_of_inactive rfl

theorem cmdReady_false_of_busy {s : State} (h : s.cmd ≠ .none) : s.cmdReady = false :=
  Bool.eq_false_iff.2 (mt (cmdReady_iff s).1 h)

/-- Settles O40: an event is consumed exactly while a command is in progress, and a dead direction has none. -/
theorem readySignalsAreExclusive : Obligations.ReadySignalsAreExclusive := by
  intro s hI
  by_cases hc : s.cmd = .none
  · have hcmd := (cmdReady_iff s).2 hc
    have hr := not_tReady_of_inv hI hc
    simp [hcmd, hr]
  · have hr := tReady_of_inv hI hc
    have hcmd := cmdReady_false_of_busy hc
    have halive := alive_of_tReady hI hr
    simp [hcmd, hr, halive]

/-- No read is longer than `BUF_CAP`, where that holds a length field (R43, log 7). -/
theorem rdN_le_bufCap {s : State} (hI : Inv s) (h4 : 4 ≤ s.bufCap) (hact : s.rdActive = true) :
    s.rdN.toNat ≤ s.bufCap := by
  obtain ⟨-, -, hn⟩ := hI.outstanding hact
  cases hc : s.cmd with
  | none => exact absurd hc hn
  | readExact => exact (hI.directRead hc).2.2
  | decodeFrame =>
    obtain ⟨hmax, hmac⟩ := (cfgWellFormed_iff _ _).1 (hI.frameConfig hc)
    obtain hf | hf | hf := hI.frameStage hc
    · rw [(hI.lengthRead hc hf).1]
      exact h4
    · obtain ⟨hrd, -, -, hle, -⟩ := hI.bodyRead hc hf
      rw [hrd]
      exact (BitVec.le_def.1 hle).trans hmax
    · obtain ⟨ha, hrd, -⟩ := hI.macRead hc hf
      rw [hrd]
      exact hmac ha

theorem abuf_length_le_bufCap {s : State} (hI : Inv s) (h4 : 4 ≤ s.bufCap) : s.abuf.length ≤ s.bufCap := by
  cases hact : s.rdActive with
  | false => simp [(hI.noRead hact).2.2]
  | true =>
    have hlt := BitVec.lt_def.1 (hI.outstanding hact).2.1
    have hle := rdN_le_bufCap hI h4 hact
    rw [hI.collected]
    omega

/-- Only the MAC stage holds a body (R31). -/
theorem body_eq_nil {s : State} (hI : Inv s) (hm : s.fst ≠ .awaitingMac) : s.body = [] := by
  cases hc : s.cmd with
  | none =>
    by_cases hd : s.fst = .failed
    · exact (hI.failedClear hd).2.2.2.2
    · exact (hI.idle hc hd).2.2.2.2
  | readExact => exact (hI.directRead hc).2.1.2.2.2
  | decodeFrame =>
    obtain hf | hf | hf := hI.frameStage hc
    · exact (hI.lengthRead hc hf).2.2.2.2
    · exact (hI.bodyRead hc hf).2.2.2.2.2.2
    · exact absurd hf hm

/-- The body that waits for its MAC passed the bounds check, and the maximum is within `BUF_CAP` (R9). -/
theorem body_length_le_bufCap {s : State} (hI : Inv s) : s.body.length ≤ s.bufCap := by
  by_cases hm : s.fst = .awaitingMac
  · have hc : s.cmd = .decodeFrame := by
      cases hc : s.cmd with
      | none => have := (hI.idle hc (by simp [hm])).1; simp [hm] at this
      | readExact => have := (hI.directRead hc).1; simp [hm] at this
      | decodeFrame => rfl
    obtain ⟨-, -, -, hle, hlen, -⟩ := hI.macRead hc hm
    rw [hlen]
    exact (BitVec.le_def.1 hle).trans ((cfgWellFormed_iff _ _).1 (hI.frameConfig hc)).1
  · simp [body_eq_nil hI hm]

/-- Settles O41. -/
theorem buffersStayWithinTheCapacity : Obligations.BuffersStayWithinTheCapacity :=
  fun _ hI h4 => ⟨abuf_length_le_bufCap hI h4, body_length_le_bufCap hI, body_eq_nil hI⟩

/-! ### Which line a step takes (00_scope.md R7; 70_reset_and_hazards.md R190) -/

/-- Settles O2: reset is taken behind lines that are no step, and `resetStep` writes these values. -/
theorem resetStepGivesResetValuesFromEveryState : Obligations.ResetStepGivesResetValuesFromEveryState := by
  intro s pre rest hpre hs
  rw [step_takes (left := []) hpre rfl hs]
  exact ⟨_, rfl, rfl, rfl, rfl, rfl, rfl, rfl, rfl, rfl, rfl, rfl, rfl, rfl, rfl, rfl, rfl, rfl, rfl, rfl, rfl⟩

/-- Where no line is a step now, nothing changes (R103). -/
theorem step_of_blocked {s : State} (h : ∀ l ∈ s.script, lineStep s l = none) : step s = .next s := by
  unfold step
  rw [takeLine_none_iff.2 h]

/-- Settles O12: with a read outstanding a command is not accepted, and a CFG is never a step. -/
theorem waitingForTheTransportChangesNothing : Obligations.WaitingForTheTransportChangesNothing := by
  intro s hI hact hlines
  have hcmd := cmdReady_false_of_busy (hI.outstanding hact).2.2
  refine step_of_blocked fun l hl => ?_
  obtain ⟨c, rfl⟩ | ⟨c, rfl⟩ := hlines l hl
  · simp [lineStep, hcmd]
  · rfl

/-- Which lines are steps does not depend on the configuration inputs or on what else is offered. -/
theorem lineStep_outside (s : State) (c : Cfg) (ls : List Line) (l : Line) :
    lineStep { s with cfg := c, script := ls } l = lineStep s l := rfl

/-- A CFG line is never taken: it drives the inputs for the lines behind it (R87). -/
theorem takeLine_config (s : State) (c d : Cfg) (rest : List Line) :
    takeLine s c (.config d :: rest) = takeLine s d rest := by
  rw [takeLine]
  cases hr : takeLine s d rest <;> simp [lineStep, lineInputs, lineStays, hr]

theorem step_of_takeLine {s : State} {u : Taken} (h : takeLine s s.cfg s.script = some u) :
    step s = runKind u.kind (s.atStep u) := by
  rw [step, h]

/-- A CFG that stands first is no step: where some line behind it is one, the step is that of the state whose
inputs it has driven (R87). -/
theorem step_config {s : State} {c : Cfg} {l : Line} {rest : List Line} (hs : s.script = .config c :: rest)
    (hl : l ∈ rest) (hstep : lineStep s l ≠ none) : step s = step { s with cfg := c, script := rest } := by
  cases hu : takeLine s c rest with
  | none => exact absurd (takeLine_none_iff.1 hu l hl) hstep
  | some u =>
    have hleft : takeLine s s.cfg s.script = some u := by rw [hs, takeLine_config, hu]
    have hright : takeLine { s with cfg := c, script := rest } c rest = some u := by
      rw [takeLine_congr (lineStep_outside s c rest), hu]
    rw [step_of_takeLine hleft, step_of_takeLine (s := { s with cfg := c, script := rest }) hright]
    rfl

/-- A FRAME that stands first steps as exec of it (log 8). -/
theorem step_frame_first {s : State} {f : WireFrame} {rest : List Line} (hr : s.tReady = true)
    (hs : s.script = .frame f :: rest) : step s = exec (.frame f) { s with script := rest } := by
  obtain ⟨b, bs, hf⟩ := frameBytes_cons s f
  rw [step_takes (pre := []) (by simp) (lineStep_frame hr hf) hs]
  show exec (decodeEvent (byteEvent b)) { s with script := byteLines bs ++ rest } = execFrame f _
  rw [decodeEvent_byteEvent, execFrame_eq (s := { s with script := rest }) hr hf]
  exact exec_tByte_of_tReady (s := { s with script := byteLines bs ++ rest }) b hr

/-- Settles O11: each clause is the line that is taken, and `runKind` decodes its word. -/
theorem stepRunsTheDecodedOperation : Obligations.StepRunsTheDecodedOperation := by
  intro s pre rest hpre
  refine ⟨fun c i hs hr hd => ?_, fun e i hs hr hd => ?_, fun f hs hr => ⟨?_, ?_⟩, fun c l hs hl hstep => ?_,
    fun hs => ?_⟩
  · cases hd
    exact step_takes hpre (lineStep_command c hr) hs
  · cases hd
    exact step_takes hpre (lineStep_event e hr) hs
  · rw [step_frame hpre hr hs, List.append_assoc]
  · rintro rfl
    exact step_frame_first hr hs
  · exact step_config hs hl hstep
  · exact step_of_blocked (hs ▸ hpre)

/-! ### Commands (40_exact_reader.md R101; 42_frame_assembler.md R131; 60_exceptions.md R175) -/

/-- READ_EXACT on an idle framer: the capacity, then the empty read, then the start of a read (R101, R168). -/
theorem exec_readExact_idle {s : State} (n : Word) (hc : s.cmd = .none) (hd : s.fst ≠ .failed) :
    exec (.readExact n) s =
      if n.toNat > s.bufCap then .refused .readExceedsBufCap
      else if n = 0 then .next (respond (.readExact n) (.ok []) s)
      else .next (State.readingWith { s with cmd := .readExact } n) :=
  (if_pos ((cmdReady_iff s).2 hc)).trans (if_neg (mt (dead_iff s).1 hd))

/-- DECODE_FRAME on an idle framer: it is refused, or it samples the configuration and starts the length read
(R131). -/
theorem exec_decodeFrame_idle {s : State} (hc : s.cmd = .none) (hd : s.fst ≠ .failed) :
    exec .decodeFrame s =
      if cfgWellFormed s.bufCap s.cfg then
        .next (State.readingWith { s with cmd := .decodeFrame, lCfg := s.cfg } 4)
      else .refused .configNotWellFormed :=
  (if_pos ((cmdReady_iff s).2 hc)).trans (if_neg (mt (dead_iff s).1 hd))

/-- Settles O13. -/
theorem readExactStartsTheRead : Obligations.ReadExactStartsTheRead := by
  intro n s hc hd h0 hn
  rw [exec_readExact_idle n hc hd, if_neg (by omega), if_neg h0]
  rfl

/-- Settles O14: 0 is within every capacity. -/
theorem readExactOfNothingAnswersAtOnce : Obligations.ReadExactOfNothingAnswersAtOnce := by
  intro s hc hd
  rw [exec_readExact_idle 0 hc hd, if_neg (by simp), if_pos rfl]
  rfl

/-- Settles O15. -/
theorem decodeFrameSamplesConfigAndStartsTheLengthRead :
    Obligations.DecodeFrameSamplesConfigAndStartsTheLengthRead := by
  intro s hc hd hmax hmac
  rw [exec_decodeFrame_idle hc hd, if_pos ((cfgWellFormed_iff _ _).2 ⟨hmax, hmac⟩)]
  rfl

/-- Settles O16: on an idle framer each command has one test that refuses it. -/
theorem commandsAreRefusedExactlyBeyondCapacity : Obligations.CommandsAreRefusedExactlyBeyondCapacity := by
  intro n s hc hd
  constructor
  · rw [exec_readExact_idle n hc hd]
    split
    · next hn => exact iff_of_true hn rfl
    · next hn =>
      refine iff_of_false hn ?_
      split <;> simp
  · rw [exec_decodeFrame_idle hc hd]
    split
    · next hw =>
      obtain ⟨hmax, hmac⟩ := (cfgWellFormed_iff _ _).1 hw
      refine iff_of_false ?_ (by simp)
      rintro (h | ⟨ha, h⟩)
      · omega
      · exact absurd (hmac ha) (by omega)
    · next hw =>
      refine iff_of_true ?_ rfl
      rw [cfgWellFormed_iff] at hw
      by_contra hn
      push Not at hn
      exact hw hn

/-- A command is not accepted while one is in progress (R40). -/
theorem exec_command_blocked {i : Instr} {s : State} (hi : (∃ n, i = .readExact n) ∨ i = .decodeFrame)
    (hc : s.cmd ≠ .none) : exec i s = .next s := by
  obtain ⟨n, rfl⟩ | rfl := hi <;> exact if_neg (mt (cmdReady_iff s).1 hc)

/-- Settles O17. -/
theorem operationsNotEnabledChangeNothing : Obligations.OperationsNotEnabledChangeNothing := by
  refine fun s => ⟨fun hc => ?_, fun hr => ?_⟩
  · exact ⟨fun n => exec_command_blocked (.inl ⟨n, rfl⟩) hc, exec_command_blocked (.inr rfl) hc⟩
  · have blocked (f : State → State) : Host.Outcome.next (if s.tReady then f s else s)
        = (.next s : Host.Outcome State Fault Refusal) := by simp [hr]
    exact ⟨fun b => blocked (takeByte b), blocked _, fun k => blocked _, blocked _,
      fun f => execFrame_blocked f hr⟩

/-- Settles O18: the test for a dead direction comes before every other (R168). -/
theorem deadDirectionAnswersWithTheLatchedFailure : Obligations.DeadDirectionAnswersWithTheLatchedFailure := by
  intro n s hc hd
  have hcmd := (cmdReady_iff s).2 hc
  have hdead := (dead_iff s).2 hd
  exact ⟨(if_pos hcmd).trans (if_pos hdead), (if_pos hcmd).trans (if_pos hdead)⟩

end Sys2Proof.Machine

/-! ### Words, codes and headers at their bits (30_encoding.md R71, R80 to R85) -/

namespace Sys2Proof

/-- A command word matches under the mask with its bit 32 alone (R82). -/
theorem and_commandMask (c : BitVec 33) :
    c &&& 0x100000000#33 = if c.getLsbD 32 then 0x100000000#33 else 0#33 :=
  BitVec.and_twoPow c 32

/-- Settles O4: `decodeCommand` looks at the one bit that the mask keeps. -/
theorem commandWordsSelectByMatchAndMask : Obligations.CommandWordsSelectByMatchAndMask := by
  intro c
  rw [and_commandMask]
  unfold decodeCommand
  cases c.getLsbD 32 <;> simp [BitVec.setWidth_eq_extractLsb']

/-- An event word keeps its bits 9:8 under the mask (R80). -/
theorem and_eventMask (t : BitVec 10) : t &&& 0x300#10 = t.extractLsb' 8 2 ++ 0#8 := by
  have ht : t.extractLsb' 8 2 ++ t.extractLsb' 0 8 = t := by
    rw [BitVec.extractLsb'_append_extractLsb'_eq_extractLsb' (start₁ := 0) (len₁ := 8) rfl,
      BitVec.extractLsb'_eq_self]
  calc t &&& 0x300#10 = (t.extractLsb' 8 2 ++ t.extractLsb' 0 8) &&& (3#2 ++ 0#8) := by rw [ht]; rfl
    _ = t.extractLsb' 8 2 ++ 0#8 := by rw [BitVec.and_append, BitVec.and_zero]; congr 1; exact BitVec.and_allOnes

/-- Which of the four matches an event word has is its kind (R80). -/
theorem eventMatch_iff (t : BitVec 10) (k : BitVec 2) : t &&& 0x300#10 = k ++ 0#8 ↔ t.extractLsb' 8 2 = k := by
  rw [and_eventMask]
  refine ⟨fun h => ?_, fun h => by rw [h]⟩
  have hk := congrArg (BitVec.extractLsb' 8 2) h
  simpa only [BitVec.extractLsb'_append_eq_left] using hk

/-- Settles O5: the four matches are the four kinds that `decodeEvent` looks at. -/
theorem eventWordsSelectByMatchAndMask : Obligations.EventWordsSelectByMatchAndMask := by
  intro t
  have kinds : ∀ k : BitVec 2, k = 0 ∨ k = 1 ∨ k = 2 ∨ k = 3 := by decide
  refine ⟨fun h => ?_, fun h => ?_, fun h => ?_, fun h => ?_, ?_⟩
  · simp [decodeEvent, (eventMatch_iff t 0).1 h, BitVec.setWidth_eq_extractLsb']
  · simp [decodeEvent, (eventMatch_iff t 1).1 h]
  · simp [decodeEvent, (eventMatch_iff t 2).1 h, BitVec.setWidth_eq_extractLsb']
  · simp [decodeEvent, (eventMatch_iff t 3).1 h]
  · exact (kinds _).imp (eventMatch_iff t 0).2 (.imp (eventMatch_iff t 1).2
      (.imp (eventMatch_iff t 2).2 (eventMatch_iff t 3).2))

/-- Settles O3: the decoder evaluates on these words. -/
theorem writtenWordsDecode : Obligations.WrittenWordsDecode :=
  ⟨rfl, rfl, rfl, rfl, rfl, rfl, rfl, rfl⟩

/-- What the decoder takes for a frame: four length bytes, and a body and a MAC behind them (R71). -/
theorem decodeWire_ok {w : List Byte} {f : WireFrame} (h : decodeWire w = .ok f) :
    ∃ l rest, w = bytes4List l ++ rest ∧ decodeWireBody (be32 l) rest = .ok f :=
  match w, h with
  | b0 :: b1 :: b2 :: b3 :: rest, h => ⟨⟨b0, b1, b2, b3⟩, rest, rfl, h⟩

/-- Bytes that decode to a frame are the wire bytes of that frame, which is well-formed (log 19). -/
theorem encodeWire_of_decodeWire {w : List Byte} {f : WireFrame} (h : decodeWire w = .ok f) :
    f.wf = true ∧ encodeWire f = w := by
  obtain ⟨l, rest, rfl, hbody⟩ := decodeWire_ok h
  obtain ⟨p, r, hr, hlen, h4, hp, rfl⟩ := decodeWireBody_ok hbody
  have hlength : r.length + 1 = (be32 l).toNat := by
    have := congrArg List.length hr
    simp only [List.length_take, List.length_cons] at this
    omega
  refine ⟨?_, ?_⟩
  · rw [wireFrame_wf_iff]
    simp only [List.length_take, List.length_drop]
    omega
  · have hrest : p :: r ++ rest.drop (be32 l).toNat = rest := by rw [← hr, List.take_append_drop]
    simp only [encodeWire, be32bytes_be32, List.take_append_drop, List.append_assoc]
    rw [hrest]

/-- The bytes of the middle one of three parts. -/
theorem slice_append (x y z : List Byte) : slice (x ++ (y ++ z)) x.length (x.length + y.length) = y := by
  simp [slice, List.take_append]

/-- Settles O7: bytes that decode to a frame are the five fields in wire order, and each field's offset is the
length of what stands before it. -/
theorem wireFieldsStandAtTheirOffsets : Obligations.WireFieldsStandAtTheirOffsets := by
  intro w f h
  obtain ⟨hwf, rfl⟩ := encodeWire_of_decodeWire h
  obtain ⟨hlen, hpad, h4⟩ := (wireFrame_wf_iff f).1 hwf
  have hhead : (bytes4List (be32bytes f.packetLength) ++ [f.paddingLength]).length = 5 := rfl
  refine ⟨hwf, (be32_be32bytes _).symm, rfl, ?_, ?_, ?_, rfl⟩
  · have := slice_append (bytes4List (be32bytes f.packetLength) ++ [f.paddingLength]) f.payload
      (f.padding ++ f.mac)
    rw [hhead, show 5 + f.payload.length = 4 + f.packetLength.toNat - f.paddingLength.toNat by omega] at this
    simpa [encodeWire] using this.symm
  · have := slice_append (bytes4List (be32bytes f.packetLength) ++ [f.paddingLength] ++ f.payload) f.padding f.mac
    rw [List.length_append, hhead,
      show 5 + f.payload.length = 4 + f.packetLength.toNat - f.paddingLength.toNat by omega,
      show 4 + f.packetLength.toNat - f.paddingLength.toNat + f.padding.length = 4 + f.packetLength.toNat by omega]
      at this
    simpa [encodeWire] using this.symm
  · have hbody : 4 + f.packetLength.toNat
        = (bytes4List (be32bytes f.packetLength) ++ f.paddingLength :: (f.payload ++ f.padding)).length := by
      simp [bytes4List]
      omega
    rw [encodeWire, hbody, List.drop_left]

end Sys2Proof

namespace Sys2Proof.Machine

/-- A field of a header at its own bits. -/
theorem extractLsb'_field {w : Nat} (x : BitVec w) {n k : Nat} (h : k + w ≤ n) :
    (x.setWidth n <<< k).extractLsb' k w = x := by
  apply BitVec.eq_of_getLsbD_eq
  intro i hi
  have : k + i < n := by omega
  simp [hi, this]

/-- A field of a header has nothing at bits that are not its own. -/
theorem extractLsb'_field_apart {w : Nat} (x : BitVec w) {n k i m : Nat} (h : i + m ≤ k ∨ k + w ≤ i) :
    (x.setWidth n <<< k).extractLsb' i m = 0#m := by
  apply BitVec.eq_of_getLsbD_eq
  intro j hj
  have : i + j < k ∨ w ≤ i + j - k := by omega
  simp only [BitVec.getLsbD_extractLsb', BitVec.getLsbD_shiftLeft, BitVec.getLsbD_setWidth,
    BitVec.getLsbD_zero]
  rcases this with h | h
  · simp [h]
  · simp [BitVec.getLsbD_of_ge x _ h]

/-- Settles O9: of the five fields of a failure each range of bits holds one, and a length below 2^32 is in
the low 32 bits of a success. -/
theorem responseHeaderFieldsStandAtTheirBits : Obligations.ResponseHeaderFieldsStandAtTheirBits := by
  refine ⟨fun r => ?_, fun d hd => ⟨?_, ?_, rfl⟩⟩
  · simp only [responseHeader, BitVec.extractLsb'_or]
    refine ⟨?_, ?_, ?_, ?_, ?_, (?_ : _ = 0#32), rfl⟩ <;>
      simp (disch := omega) only [extractLsb'_field, extractLsb'_field_apart, BitVec.or_zero, BitVec.zero_or]
  · apply BitVec.eq_of_getLsbD_eq
    intro i hi
    simp [responseHeader]
  · simp [responseHeader]
    omega

/-- Settles O10: each code is written out, and the types have no other value. -/
theorem registerCodesAreTheSpecs : Obligations.RegisterCodesAreTheSpecs := by
  refine ⟨rfl, rfl, rfl, rfl, rfl, rfl, rfl, rfl, rfl, rfl, rfl, rfl, rfl, rfl, rfl, rfl, rfl, ?_, ?_, ?_⟩
  · intro c; cases c <;> decide
  · intro f; cases f <;> decide
  · intro e; cases e <;> decide

end Sys2Proof.Machine

/-! ### Transport events (40_exact_reader.md R104 to R107; 60_exceptions.md R170) -/

namespace Sys2Proof.Machine

/-- Settles O20. -/
theorem lastByteOfADirectReadAnswersWithTheBytes : Obligations.LastByteOfADirectReadAnswersWithTheBytes := by
  intro b s ⟨hr, hl⟩ hc
  rw [exec_tByte_of_tReady b hr, takeByte_completes_direct hl hc]

/-- A transport failure is failure entry with the cipher state as it was, or, where a body read under a cipher
is interrupted midway, with another (R136, R171). -/
theorem takeFailure_deadWith (f : Failure) (s : State) :
    ∃ cs k, takeFailure f s = State.deadWith { s with cs := cs, freeCount := k } s.command (failureRecord f)
      ∧ ((s.cmd ≠ .decodeFrame ∨ s.fst ≠ .awaitingBody ∨ s.lCfg.cipherActive = false ∨ s.rdK = 0)
        → cs = s.cs ∧ k = s.freeCount) := by
  rw [takeFailure_eq]
  obtain h | ⟨hc, hf, ha, hk, h⟩ := loseCipher_cases s
  · exact ⟨s.cs, s.freeCount, by rw [h], fun _ => ⟨rfl, rfl⟩⟩
  · refine ⟨_, _, by rw [h], ?_⟩
    rintro (h | h | h | h)
    · exact absurd hc h
    · exact absurd hf h
    · simp [h] at ha
    · exact absurd h hk

theorem decodeEvent_eos (d : BitVec 8) : decodeEvent (1#2 ++ d) = .tEos := by
  have hkind : (1#2 ++ d).extractLsb' 8 2 = 1#2 := BitVec.extractLsb'_append_eq_left
  simp [decodeEvent, hkind]

theorem decodeEvent_err (x : BitVec 6) (k : BitVec 2) : decodeEvent (2#2 ++ (x ++ k)) = .tErr k := by
  have hkind : (2#2 ++ (x ++ k)).extractLsb' 8 2 = 2#2 := BitVec.extractLsb'_append_eq_left
  have hlow : (2#2 ++ (x ++ k)).extractLsb' 0 2 = k := by
    rw [BitVec.extractLsb'_append_eq_of_add_le (by decide), BitVec.extractLsb'_append_eq_right]
  simp [decodeEvent, hkind, hlow]

theorem decodeEvent_errReserved (d : BitVec 8) : decodeEvent (3#2 ++ d) = .tErrReserved := by
  have hkind : (3#2 ++ d).extractLsb' 8 2 = 3#2 := BitVec.extractLsb'_append_eq_left
  simp [decodeEvent, hkind]

/-- Settles O21: T_EOS is a transport failure with the two counts. -/
theorem tEosIsAShortRead : Obligations.TEosIsAShortRead := by
  refine ⟨decodeEvent_eos, fun s hr => ⟨((tReady_iff s).1 hr).2, ?_⟩⟩
  obtain ⟨cs, k, h, hkept⟩ := takeFailure_deadWith (.shortRead s.rdN s.rdK) s
  exact ⟨cs, k, by rw [exec_tEos_of_tReady hr, h]; rfl, hkept⟩

/-- Settles O22: T_ERR is a transport failure of its kind, and the reserved kind is that of kind 0. -/
theorem tErrIsATransportErrorOfItsKind : Obligations.TErrIsATransportErrorOfItsKind := by
  refine ⟨decodeEvent_err, decodeEvent_errReserved, fun s hr => ⟨fun k => ?_, ?_⟩⟩
  · obtain ⟨cs, n, h, hkept⟩ := takeFailure_deadWith (.transportError k) s
    exact ⟨cs, n, by rw [exec_tErr_of_tReady k hr, h]; rfl, hkept⟩
  · obtain ⟨cs, n, h, -⟩ := takeFailure_deadWith (.transportError 0) s
    refine ⟨cs, n, by rw [exec_tErrReserved_of_tReady hr, h]; rfl, ?_⟩
    rw [exec_tErrReserved_of_tReady hr, exec_tErr_of_tReady 0 hr]

/-- What a failed read had collected reaches at most the cipher state (R58, R136). -/
theorem takeFailure_setAbuf (f : Failure) (s : State) (a : List Byte) :
    (takeFailure f { s with abuf := a }).forgetCipher = (takeFailure f s).forgetCipher
      ∧ ((s.cmd ≠ .decodeFrame ∨ s.fst ≠ .awaitingBody ∨ s.lCfg.cipherActive = false ∨ s.rdK = 0)
        → takeFailure f { s with abuf := a } = takeFailure f s) := by
  obtain ⟨cs, k, h, hkept⟩ := takeFailure_deadWith f s
  obtain ⟨cs', k', h', hkept'⟩ := takeFailure_deadWith f { s with abuf := a }
  rw [h, h']
  refine ⟨rfl, fun hc => ?_⟩
  obtain ⟨rfl, rfl⟩ := hkept hc
  obtain ⟨rfl, rfl⟩ := hkept' hc
  rfl

/-- An event that is not a byte is a failure of the transport that the collected bytes have no part in. -/
theorem exec_failureEvent {i : Instr} (hi : i = .tEos ∨ (∃ k, i = .tErr k) ∨ i = .tErrReserved) {s : State}
    (hr : s.tReady = true) :
    ∃ f, ∀ a, exec i { s with abuf := a } = .next (takeFailure f { s with abuf := a }) := by
  obtain rfl | ⟨k, rfl⟩ | rfl := hi
  · exact ⟨.shortRead s.rdN s.rdK, fun a => exec_tEos_of_tReady (s := { s with abuf := a }) hr⟩
  · exact ⟨.transportError k, fun a => exec_tErr_of_tReady (s := { s with abuf := a }) k hr⟩
  · exact ⟨.transportError 0, fun a => exec_tErrReserved_of_tReady (s := { s with abuf := a }) hr⟩

/-- Settles O23. -/
theorem aFailedReadDiscardsItsBytes : Obligations.AFailedReadDiscardsItsBytes := by
  intro i s a hi hr
  obtain ⟨f, hf⟩ := exec_failureEvent hi hr
  have hs : exec i s = .next (takeFailure f s) := hf s.abuf
  obtain ⟨hforget, hsame⟩ := takeFailure_setAbuf f s a
  rw [hf a, hs]
  exact ⟨congrArg Host.Outcome.next hforget, fun hc => congrArg Host.Outcome.next (hsame hc)⟩

/-- An event is one of the operations of the transport. -/
theorem transport_of_event {i : Instr}
    (hi : (∃ b, i = .tByte b) ∨ i = .tEos ∨ (∃ k, i = .tErr k) ∨ i = .tErrReserved) :
    (∃ b, i = .tByte b) ∨ i = .tEos ∨ (∃ k, i = .tErr k) ∨ i = .tErrReserved ∨ ∃ f, i = .frame f :=
  hi.imp_right (.imp_right (.imp_right .inl))

/-- What an event leaves, whether it is consumed or not. -/
theorem exec_event_leaves {i : Instr} {s t : State}
    (hi : (∃ b, i = .tByte b) ∨ i = .tEos ∨ (∃ k, i = .tErr k) ∨ i = .tErrReserved) (h : exec i s = .next t) :
    LeavesTheRest s t := by
  cases hr : s.tReady with
  | false =>
    rw [transport_blocked hr (transport_of_event hi) h]
    exact leavesTheRest_refl s
  | true =>
    obtain ⟨b, -, rfl⟩ | ⟨-, f, -, rfl⟩ := event_cases hi hr h
    · exact takeByte_leaves b s
    · exact takeFailure_leaves f s

/-- Settles O24. -/
theorem transportEventsLeaveTheRest : Obligations.TransportEventsLeaveTheRest :=
  fun _ _ _ hi h => exec_event_leaves hi h

/-! ### The last byte of each stage (42_frame_assembler.md R135 to R145) -/

/-- Settles O27: a length of 0 is within bounds whose minimum is 0. -/
theorem aLengthOfZeroFailsInTheSameStep : Obligations.ALengthOfZeroFailsInTheSameStep := by
  intro b s hl hc hf u h0 hmin
  have hb : lengthInBounds s.lCfg (be32 (bytes4OfList (s.plain (s.abuf ++ [b])))) = true := by
    rw [lengthInBounds_toNat, h0, hmin]
    simp
  rw [exec_lastLengthByte hl hc hf, lengthStage_empty (s := { s with cur := s.cur + 1 }) hb h0]
  rfl

/-- The last byte of a body is the body stage on it, `CUR` 1 higher (R104, R107, R132). -/
theorem exec_lastBodyByte {b : Byte} {s : State} (h : s.AtLastByte) (hc : s.cmd = .decodeFrame)
    (hf : s.fst = .awaitingBody) :
    exec (.tByte b) s = .next (bodyStage (s.abuf ++ [b]) (clearRead { s with cur := s.cur + 1 })) := by
  rw [exec_lastByte h hc, continueFrame_body (s := { s with cur := s.cur + 1 }) hf]

/-- A body whose padding is wrong ends the direction, `CUR` 1 higher (R138, R139). -/
theorem exec_lastBodyByte_bad {b : Byte} {s : State} {f : Failure} (h : s.AtLastByte) (hc : s.cmd = .decodeFrame)
    (hf : s.fst = .awaitingBody) (hp : paddingFault (s.plain (s.abuf ++ [b])) s.pktLen = some f) :
    exec (.tByte b) s = .next (State.deadWith { s with cs := s.csAfter (s.abuf ++ [b]), cur := s.cur + 1 }
      .decodeFrame (failureRecord f)) := by
  rw [exec_lastBodyByte h hc hf, bodyStage_bad (s := { s with cur := s.cur + 1 }) hp]
  rfl

/-- Settles O28: the three clauses are the three tests of `paddingFault`. -/
theorem wrongPaddingStopsBeforeTheMac : Obligations.WrongPaddingStopsBeforeTheMac := by
  intro b s hl hc hf p u
  refine ⟨fun h0 => ?_, fun h0 hp => ?_, fun h0 hp hlt => ?_⟩
  · exact exec_lastBodyByte_bad hl hc hf (if_pos h0)
  · exact exec_lastBodyByte_bad hl hc hf ((if_neg h0).trans (if_pos hp))
  · exact exec_lastBodyByte_bad hl hc hf ((if_neg h0).trans ((if_neg (not_lt.2 hp)).trans (if_pos hlt)))

/-- Settles O29: the padding check passes, and the body stage has one equation for each kind of MAC. -/
theorem goodBodyCommitsOrStartsTheMacRead : Obligations.GoodBodyCommitsOrStartsTheMacRead := by
  intro b s hl hc hf body p u h4 hlen
  have h0 : s.pktLen ≠ 0 := fun h => by simp [h] at hlen
  have hp : paddingFault body s.pktLen = none := paddingFault_none.2 ⟨h0, h4, hlen⟩
  rw [exec_lastBodyByte hl hc hf]
  refine ⟨fun hm => ?_, fun hm hn => ?_, fun hm hz => ?_⟩
  · exact congrArg _ (bodyStage_commits (s := { s with cur := s.cur + 1 }) hp hm)
  · exact congrArg _ (bodyStage_startsMac (s := { s with cur := s.cur + 1 }) hp hm hn)
  · exact congrArg _ (bodyStage_emptyMac (s := { s with cur := s.cur + 1 }) hp hm hz)

/-- Settles O30. -/
theorem lastMacByteCommitsOrIsAnIntegrityViolation :
    Obligations.LastMacByteCommitsOrIsAnIntegrityViolation := by
  intro b s hl hc hf
  rw [exec_lastByte hl hc, continueFrame_mac (s := { s with cur := s.cur + 1 }) hf]
  exact congrArg _ (macStage_clearRead _ { s with cur := s.cur + 1 })

end Sys2Proof.Machine

/-! ### Counter, failures, responses and cursor (10_state.md R37; 20_memory.md R61; 41_sequence_counter.md) -/

namespace Sys2Proof.Machine

/-- A command leaves the counter. -/
theorem exec_command_seq {i : Instr} {s t : State} (hi : (∃ n, i = .readExact n) ∨ i = .decodeFrame)
    (h : exec i s = .next t) : t.seq = s.seq := by
  obtain ⟨-, rfl⟩ | ⟨-, c, r, -, rfl⟩ | ⟨-, -, n, -, -, -, rfl⟩ | ⟨-, -, -, -, rfl⟩ := command_cases hi h
  · rfl
  · exact respond_seq c r s
  · rfl
  · rfl

/-- What the counter does while a read is outstanding: it stays, or a frame commits with its answer (R120,
R145). -/
theorem seq_of_progress {s t : State} (h : GoesOn s t ∨ Ends s t) :
    t.seq = s.seq
      ∨ t.seq = s.seq + 1 ∧ s.cmd = .decodeFrame ∧ t.Idle
        ∧ ∃ p, t.responses = s.responses ++ [⟨.decodeFrame, .ok p⟩] := by
  obtain ⟨-, -, hseq, -⟩ | ⟨-, -, ⟨-, -, hseq, -⟩ | ⟨hc, hidle, hseq, p, hp⟩ | ⟨-, hseq, -⟩⟩ := h
  · exact .inl hseq
  · exact .inl hseq
  · rw [command_decodeFrame hc] at hp
    exact .inr ⟨hseq, hc, hidle, p, hp⟩
  · exact .inl hseq

/-- No word selects SEQ_NEXT (R83). -/
theorem decode_ne_seqNext (c : Code) : decode c ≠ .ok .seqNext := by
  intro h
  cases c with
  | command w =>
    obtain ⟨n, hd⟩ | hd := decodeCommand_cases w <;> simp [decode, hd] at h
  | event e =>
    obtain ⟨b, hd⟩ | hd | ⟨k, hd⟩ | hd := decodeEvent_cases e <;> simp [decode, hd] at h
  | wire w =>
    cases hw : decodeWire w <;> simp [decode, hw, Except.map] at h

/-- Settles O32: of the four kinds of step only reset and the event that commits a frame write the counter. -/
theorem seqNextReturnsThenIncrementsOnlyInCommit : Obligations.SeqNextReturnsThenIncrementsOnlyInCommit := by
  refine ⟨fun s => ⟨rfl, rfl, BitVec.toNat_add _ _⟩, rfl, decode_ne_seqNext, fun s t hI h => ?_⟩
  obtain ⟨-, rfl⟩ | ⟨u, hu, ⟨hk, rfl⟩ | ⟨c, -, -, hx⟩ | ⟨e, -, hr, hx⟩⟩ := step_cases h
  · exact .inl rfl
  · exact .inr (.inl ⟨rfl, u, hu, hk⟩)
  · exact .inl (exec_command_seq (s := s.atStep u) (decodeCommand_cases c) hx)
  · have hi := transport_of_event (decodeEvent_cases e)
    exact (seq_of_progress (transport_progress (s := s.atStep u) (atStep_inv u hI) hr hi hx)).imp_right .inr

/-- A byte that ends the direction writes the counter in no stage (R171). -/
theorem takeByte_seq_of_failed {b : Byte} {s : State}
    (h : (takeByte b s).fst = .failed) : (takeByte b s).seq = s.seq := by
  by_cases hl : s.rdK + 1 = s.rdN
  · by_cases hc : s.cmd = .readExact
    · rw [takeByte_completes_direct hl hc]
    · rw [takeByte_completes_frame hl hc] at h ⊢
      by_cases hf : s.fst = .awaitingLength ∨ s.fst = .awaitingBody ∨ s.fst = .awaitingMac
      · obtain ⟨_, _, -, -, he⟩ | ⟨_, _, -, he⟩ | ⟨-, _, _, -, -, -, he⟩ | ⟨-, -, -, -, _, -, he⟩ :=
          continueFrame_cases (s.abuf ++ [b]) { s with cur := s.cur + 1 } hf
        · rw [he]; rfl
        · rw [he] at h; cases h
        · rw [he]; rfl
        · rw [he]; rfl
      · rw [continueFrame_other (s := { s with cur := s.cur + 1 }) hf]
        rfl
  · rw [takeByte_collects hl]

theorem takeFailure_seq (f : Failure) (s : State) : (takeFailure f s).seq = s.seq := by
  obtain ⟨cs, k, h, -⟩ := takeFailure_deadWith f s
  rw [h]
  rfl

/-- Settles O33: a byte that ends the direction and a transport failure each leave the counter, and what they
leave of the rest is what every event leaves. -/
theorem failureEntryLeavesCounterCursorAndConfig : Obligations.FailureEntryLeavesCounterCursorAndConfig := by
  refine ⟨fun c f s => ⟨rfl, rfl, rfl, rfl⟩, fun i s t hi hr h _ hdead => ?_⟩
  obtain ⟨hlCfg, -, -, -, -, -, hcs, -⟩ := exec_event_leaves hi h
  have hplain : s.lCfg.cipherActive = false → t.cs = s.cs := fun ha => hcs (.inl ha)
  obtain ⟨b, rfl, rfl⟩ | ⟨hne, f, -, rfl⟩ := event_cases hi hr h
  · exact ⟨takeByte_seq_of_failed hdead, hlCfg, fun _ => takeByte_cur b s, fun hn => absurd rfl (hn b),
      hplain, fun hn => absurd rfl (hn b)⟩
  · refine ⟨takeFailure_seq f s, hlCfg, fun ⟨b, hb⟩ => absurd hb (hne b), fun _ => takeFailure_cur f s, hplain,
      fun _ hc => ?_⟩
    obtain ⟨cs, k, he, hkept⟩ := takeFailure_deadWith f s
    rw [he]
    exact (hkept (hc.imp_right (.imp_right .inr))).1

/-- Every operation is a command, is offered by the transport, or is SEQ_NEXT (R90). -/
theorem instr_cases (i : Instr) :
    ((∃ n, i = .readExact n) ∨ i = .decodeFrame)
      ∨ ((∃ b, i = .tByte b) ∨ i = .tEos ∨ (∃ k, i = .tErr k) ∨ i = .tErrReserved ∨ ∃ f, i = .frame f)
      ∨ i = .seqNext := by
  cases i <;> simp

/-- A command's share of O35: it is answered at once, or starts a read with no answer. -/
theorem command_responses {i : Instr} {s t : State} (hi : (∃ n, i = .readExact n) ∨ i = .decodeFrame)
    (h : exec i s = .next t) :
    (s.cmd ≠ .none ∧ t = s)
      ∨ (s.cmd = .none ∧ t.cmd ≠ .none ∧ t.responses = s.responses ∧ commandOf i = some t.command)
      ∨ (s.cmd = .none ∧ t.cmd = .none ∧ ∃ c r, commandOf i = some c ∧ t.responses = s.responses ++ [⟨c, r⟩]) := by
  obtain ⟨hc, rfl⟩ | ⟨hc, c, r, hi, rfl⟩ | ⟨hc, -, n, rfl, -, -, rfl⟩ | ⟨hc, -, rfl, -, rfl⟩ := command_cases hi h
  · exact .inl ⟨hc, rfl⟩
  · exact .inr (.inr ⟨hc, hc, c, r, hi, rfl⟩)
  · exact .inr (.inl ⟨hc, by simp [State.readingWith], rfl, rfl⟩)
  · exact .inr (.inl ⟨hc, by simp [State.readingWith], rfl, rfl⟩)

/-- A command in progress that ends has one answer, which is to it (R61, R65). -/
theorem responses_of_ends {s t : State} (h : Ends s t) : ∃ r, t.responses = s.responses ++ [⟨s.command, r⟩] := by
  obtain ⟨-, -, ⟨-, -, -, d, hd⟩ | ⟨-, -, -, p, hp⟩ | ⟨-, -, r, hr⟩⟩ := h
  · exact ⟨_, hd⟩
  · exact ⟨_, hp⟩
  · exact ⟨_, hr⟩

theorem commandOf_transport {i : Instr}
    (hi : (∃ b, i = .tByte b) ∨ i = .tEos ∨ (∃ k, i = .tErr k) ∨ i = .tErrReserved ∨ ∃ f, i = .frame f) :
    commandOf i = none := by
  obtain ⟨b, rfl⟩ | rfl | ⟨k, rfl⟩ | rfl | ⟨f, rfl⟩ := hi <;> rfl

/-- Settles O35: a command starts or is answered, the transport moves a command on or ends it, and SEQ_NEXT
does neither. -/
theorem everyCommandGetsExactlyOneResponse : Obligations.EveryCommandGetsExactlyOneResponse := by
  intro i s t hI h
  obtain hi | hi | rfl := instr_cases i
  · obtain ⟨hc, rfl⟩ | ⟨hc, ht, hresp, hcmd⟩ | ⟨hc, ht, c, r, hcmd, hresp⟩ := command_responses hi h
    · exact ⟨fun _ _ => ⟨rfl, rfl⟩, fun _ h0 => absurd h0 hc, fun h0 => absurd h0 hc, fun h0 => absurd h0 hc⟩
    · exact ⟨fun h0 => absurd hc h0, fun h0 => absurd hc h0, fun _ _ => ⟨hresp, hcmd⟩, fun _ h0 => absurd h0 ht⟩
    · refine ⟨fun h0 => absurd hc h0, fun h0 => absurd hc h0, fun _ h0 => absurd ht h0, fun _ _ c' hc' => ?_⟩
      obtain rfl : c = c' := Option.some.inj (hcmd.symm.trans hc')
      exact ⟨r, hresp⟩
  · have hnone := commandOf_transport hi
    by_cases hc : s.cmd = .none
    · obtain rfl := transport_blocked (not_tReady_of_inv hI hc) hi h
      exact ⟨fun h0 => absurd hc h0, fun h0 => absurd hc h0, fun _ h0 => absurd hc h0, by simp [hnone]⟩
    · obtain ⟨⟨hcmd, hcommand⟩, -, -, hresp, -⟩ | hends := transport_progress hI (tReady_of_inv hI hc) hi h
      · exact ⟨fun _ _ => ⟨hresp, hcommand⟩, fun _ h0 => absurd (hcmd.symm.trans h0) hc, fun h0 => absurd h0 hc,
          fun h0 => absurd h0 hc⟩
      · exact ⟨fun _ h0 => absurd hends.1 h0, fun _ _ => responses_of_ends hends, fun h0 => absurd h0 hc,
          fun h0 => absurd h0 hc⟩
  · cases h
    exact ⟨fun _ _ => ⟨rfl, rfl⟩, fun h0 h1 => absurd h1 h0, fun h0 h1 => absurd h0 h1, by simp [commandOf]⟩

/-- An operation of the transport that is consumed moves the cursor by 1 exactly where it is a byte (R37). -/
theorem exec_transport_cur {i : Instr} {s t : State} (hr : s.tReady = true)
    (hi : (∃ b, i = .tByte b) ∨ i = .tEos ∨ (∃ k, i = .tErr k) ∨ i = .tErrReserved ∨ ∃ f, i = .frame f)
    (h : exec i s = .next t) :
    (t.cur = s.cur + 1 ∧ ((∃ b, i = .tByte b) ∨ ∃ f, i = .frame f))
      ∨ (t.cur = s.cur ∧ (∀ b, i ≠ .tByte b) ∧ ∀ f, i ≠ .frame f) := by
  obtain ⟨b, rfl⟩ | rfl | ⟨k, rfl⟩ | rfl | ⟨f, rfl⟩ := hi
  · rw [exec_tByte_of_tReady b hr] at h
    cases h
    exact .inl ⟨takeByte_cur b s, .inl ⟨b, rfl⟩⟩
  · rw [exec_tEos_of_tReady hr] at h
    cases h
    exact .inr ⟨takeFailure_cur _ s, by simp, by simp⟩
  · rw [exec_tErr_of_tReady k hr] at h
    cases h
    exact .inr ⟨takeFailure_cur _ s, by simp, by simp⟩
  · rw [exec_tErrReserved_of_tReady hr] at h
    cases h
    exact .inr ⟨takeFailure_cur _ s, by simp, by simp⟩
  · obtain ⟨b, bs, hf⟩ := frameBytes_cons s f
    replace h : execFrame f s = .next t := h
    rw [execFrame_eq hr hf] at h
    cases h
    exact .inl ⟨takeByte_cur b (offerBytes bs s), .inr ⟨f, rfl⟩⟩

/-- Settles O36. -/
theorem cursorMovesOnlyWithConsumedBytes : Obligations.CursorMovesOnlyWithConsumedBytes := by
  intro i s t h
  obtain hi | hi | rfl := instr_cases i
  · have hcur := exec_command_cur hi h
    refine ⟨by omega, ?_, fun _ _ => hcur⟩
    obtain ⟨n, rfl⟩ | rfl := hi <;> simp
  · cases hr : s.tReady with
    | false =>
      obtain rfl := transport_blocked hr hi h
      simp
    | true =>
      obtain ⟨hcur, hbyte⟩ | ⟨hcur, hb, hf⟩ := exec_transport_cur hr hi h
      · refine ⟨by omega, fun _ _ => hcur, fun hb hf => ?_⟩
        obtain ⟨b, rfl⟩ | ⟨f, rfl⟩ := hbyte
        · exact absurd rfl (hb b)
        · exact absurd rfl (hf f)
      · refine ⟨by omega, ?_, fun _ _ => hcur⟩
        rintro (⟨b, rfl⟩ | ⟨f, rfl⟩)
        · exact absurd rfl (hb b)
        · exact absurd rfl (hf f)
  · cases h
    simp

/-- A run that is offered a FRAME first is one that is offered its bytes (R88). -/
theorem run_frame {s : State} (f : WireFrame) (rest : List Line) {k : Nat} (hr : s.tReady = true) (hk : k ≠ 0) :
    Host.Core.run Sys2Proof.core k { s with script := .frame f :: rest }
      = Host.Core.run Sys2Proof.core k { s with script := byteLines (s.frameBytes f) ++ rest } := by
  obtain ⟨j, rfl⟩ := Nat.exists_eq_succ_of_ne_zero hk
  exact run_congr j (step_frame (s := { s with script := .frame f :: rest }) (pre := []) (by simp) hr rfl)

/-- Settles O37: the first byte is `execFrame_eq`, and the run is one over the bytes of the frame. -/
theorem frameBytesAreConsumedOnceOrKept : Obligations.FrameBytesAreConsumedOnceOrKept := by
  intro f s hr
  obtain ⟨b, bs, hf⟩ := frameBytes_cons s f
  have hexec : exec (.frame f) s = .next (takeByte b (offerBytes bs s)) := execFrame_eq hr hf
  refine ⟨⟨b, bs, _, hf, ?_, hexec, takeByte_cur b (offerBytes bs s), ?_⟩, fun rest => ?_⟩
  · rw [hexec]
    exact (exec_tByte_of_tReady (s := offerBytes bs s) b hr).symm
  · obtain ⟨-, -, hscript, -⟩ := takeByte_leaves b (offerBytes bs s)
    exact hscript
  · obtain ⟨k, t, hle, -, hrun, hcur, hmore, hone, hcfg, hlCfg, hcap, hinit⟩ := run_bytes (s.frameBytes f) s rest
    have hk : 1 ≤ k := hone hr (by simp [hf])
    rw [← run_frame f rest hr (by omega)] at hrun
    exact ⟨k, _, hk, hle, hrun, hcur, rfl, hmore, hcfg, hlCfg, hcap, hinit⟩

end Sys2Proof.Machine

/-! ### What the host can read (10_state.md R39, R40) -/

namespace Sys2Proof.Machine

theorem busy_iff (s : State) : s.busy = true ↔ s.cmd ≠ .none := by
  simp [State.busy]

/-- Settles O48. -/
theorem statusOutputsAreTheReadableRegisters : Obligations.StatusOutputsAreTheReadableRegisters :=
  fun s => ⟨rfl, rfl, rfl, rfl, rfl, rfl, rfl, rfl, busy_iff s, dead_iff s, cmdReady_iff s, tReady_iff s⟩

theorem cmdCode_inj {a b : Cmd} : cmdCode a = cmdCode b → a = b := by
  cases a <;> cases b <;> decide

theorem fstCode_inj {a b : Fst} : fstCode a = fstCode b → a = b := by
  cases a <;> cases b <;> decide

theorem errCodeBits_inj {a b : ErrCode} : errCodeBits a = errCodeBits b → a = b := by
  cases a <;> cases b <;> decide

theorem reasonBits_inj {a b : Reason} : reasonBits a = reasonBits b → a = b := by
  cases a <;> cases b <;> decide

/-- The status outputs determine the readable registers, since no two values share a code (R39). -/
theorem statusOutputs_eq_iff (s t : State) :
    s.statusOutputs = t.statusOutputs ↔ s.cmd = t.cmd ∧ s.fst = t.fst ∧ s.seq = t.seq ∧ s.err = t.err := by
  refine ⟨fun h => ?_, fun ⟨hc, hf, hs, he⟩ => by simp only [State.statusOutputs, hc, hf, hs, he]⟩
  obtain ⟨hc, hf, hs, hcode, hkind, hreason, hexp, hact⟩ := StatusOutputs.mk.inj h
  refine ⟨cmdCode_inj hc, fstCode_inj hf, hs, ?_⟩
  have hcode' := errCodeBits_inj hcode
  have hreason' := reasonBits_inj hreason
  cases hs : s.err
  cases ht : t.err
  simp_all

/-- The observation is the responses, the status outputs and the cursor (R65). -/
theorem observe_eq_iff (s t : State) :
    s.observe = t.observe ↔
      s.responses = t.responses ∧ s.cur = t.cur ∧ s.cmd = t.cmd ∧ s.fst = t.fst ∧ s.seq = t.seq ∧ s.err = t.err := by
  rw [← statusOutputs_eq_iff, State.observe, State.observe, Observation.mk.injEq]
  tauto

/-- Settles O49. -/
theorem hiddenRegistersShowInNoOutput : Obligations.HiddenRegistersShowInNoOutput :=
  ⟨statusOutputs_eq_iff, observe_eq_iff, fun _ _ _ _ _ _ _ _ _ _ => ⟨rfl, rfl, rfl, rfl, rfl⟩⟩

end Sys2Proof.Machine

/-! ### What the configuration inputs, `BLOCK_SIZE` and `L_CFG` reach (10_state.md R36; 20_memory.md R56) -/

namespace Sys2Proof.Machine

/-- An operation of the transport always answers a state, and leaves both configuration records. -/
theorem exec_transport_next {i : Instr} (s : State)
    (hi : (∃ b, i = .tByte b) ∨ i = .tEos ∨ (∃ k, i = .tErr k) ∨ i = .tErrReserved ∨ ∃ f, i = .frame f) :
    ∃ t, exec i s = .next t ∧ t.cfg = s.cfg ∧ t.lCfg = s.lCfg := by
  have event {i : Instr} {t : State} (h : exec i s = .next t)
      (hi : (∃ b, i = .tByte b) ∨ i = .tEos ∨ (∃ k, i = .tErr k) ∨ i = .tErrReserved) :
      ∃ t, exec i s = .next t ∧ t.cfg = s.cfg ∧ t.lCfg = s.lCfg := by
    obtain ⟨hlCfg, hcfg, -⟩ := exec_event_leaves hi h
    exact ⟨t, h, hcfg, hlCfg⟩
  obtain ⟨b, rfl⟩ | rfl | ⟨k, rfl⟩ | rfl | ⟨f, rfl⟩ := hi
  · exact event rfl (.inl ⟨b, rfl⟩)
  · exact event rfl (.inr (.inl rfl))
  · exact event rfl (.inr (.inr (.inl ⟨k, rfl⟩)))
  · exact event rfl (.inr (.inr (.inr rfl)))
  · cases hr : s.tReady with
    | false => exact ⟨s, execFrame_blocked f hr, rfl, rfl⟩
    | true =>
      obtain ⟨b, bs, hf⟩ := frameBytes_cons s f
      obtain ⟨hlCfg, hcfg, -⟩ := takeByte_leaves b (offerBytes bs s)
      exact ⟨_, execFrame_eq hr hf, hcfg, hlCfg⟩

/-- Settles O42: a command is not accepted, the transport commutes with replacing the inputs, and SEQ_NEXT
reads none. -/
theorem configInputsDoNotReachACommandInProgress : Obligations.ConfigInputsDoNotReachACommandInProgress := by
  intro i s c hc
  obtain hi | hi | rfl := instr_cases i
  · rw [exec_command_blocked hi hc, exec_command_blocked (s := s.setInputs c) hi hc]
    rfl
  · obtain ⟨t, ht, -, hlCfg⟩ := exec_transport_next s hi
    have hinputs : t.withInputs c s.lCfg.blockSize t.script = t.setInputs c := by rw [← hlCfg]; rfl
    have h := exec_transport_withInputs c s.lCfg.blockSize s hi
    rw [ht] at h ⊢
    exact h.trans (congrArg Host.Outcome.next hinputs)
  · rfl

/-- READ_EXACT reads no configuration: it commutes with whatever leaves the registers it reads. -/
theorem exec_readExact_map {g : State → State} (n : Word) (s : State) (hcmd : (g s).cmd = s.cmd)
    (hfst : (g s).fst = s.fst) (herr : (g s).err = s.err) (hcap : (g s).bufCap = s.bufCap)
    (hrespond : ∀ c r, respond c r (g s) = g (respond c r s))
    (hread : State.readingWith { g s with cmd := .readExact } n
      = g (State.readingWith { s with cmd := .readExact } n)) :
    exec (.readExact n) (g s) = mapNext g (exec (.readExact n) s) := by
  by_cases hc : s.cmd = .none
  · by_cases hd : s.fst = .failed
    · have hdead (u : State) (hc : u.cmd = .none) (hd : u.fst = .failed) :
          exec (.readExact n) u = .next (respond (.readExact n) (.fail u.err) u) :=
        (deadDirectionAnswersWithTheLatchedFailure n u hc hd).1
      rw [hdead s hc hd, hdead (g s) (hcmd.trans hc) (hfst.trans hd), herr, hrespond]
      rfl
    · rw [exec_readExact_idle n hc hd, exec_readExact_idle n (hcmd.trans hc) (by rwa [hfst])]
      by_cases hn : n.toNat > s.bufCap
      · rw [if_pos hn, if_pos (by rwa [hcap])]
        rfl
      · rw [if_neg hn, if_neg (by rwa [hcap])]
        split
        · exact congrArg Host.Outcome.next (hrespond _ _)
        · exact congrArg Host.Outcome.next hread
  · rw [exec_command_blocked (.inl ⟨n, rfl⟩) hc, exec_command_blocked (.inl ⟨n, rfl⟩) (by rwa [hcmd])]
    rfl

/-! #### `BLOCK_SIZE` -/

theorem mapNext_mapNext (g h : State → State) (o : Host.Outcome State Fault Refusal) :
    mapNext g (mapNext h o) = mapNext (fun t => g (h t)) o := by
  cases o <;> rfl

theorem forgetBlockSize_idem (s : State) : s.forgetBlockSize.forgetBlockSize = s.forgetBlockSize := rfl

/-- DECODE_FRAME copies `BLOCK_SIZE` with the rest of the record, and its test does not look at it (R9). -/
theorem exec_decodeFrame_forgetBlockSize (s : State) :
    exec .decodeFrame s.forgetBlockSize = mapNext State.forgetBlockSize (exec .decodeFrame s) := by
  by_cases hc : s.cmd = .none
  · by_cases hd : s.fst = .failed
    · rw [(deadDirectionAnswersWithTheLatchedFailure 0 s hc hd).2,
        (deadDirectionAnswersWithTheLatchedFailure 0 s.forgetBlockSize hc hd).2]
      rfl
    · have hwf : cfgWellFormed s.forgetBlockSize.bufCap s.forgetBlockSize.cfg = cfgWellFormed s.bufCap s.cfg := rfl
      rw [exec_decodeFrame_idle hc hd, exec_decodeFrame_idle (s := s.forgetBlockSize) hc hd, hwf]
      split <;> rfl
  · rw [exec_command_blocked (.inr rfl) hc, exec_command_blocked (s := s.forgetBlockSize) (.inr rfl) hc]
    rfl

/-- Every operation commutes with forgetting `BLOCK_SIZE`. -/
theorem exec_forgetBlockSize (i : Instr) (s : State) :
    exec i s.forgetBlockSize = mapNext State.forgetBlockSize (exec i s) := by
  obtain (⟨n, rfl⟩ | rfl) | hi | rfl := instr_cases i
  · exact exec_readExact_map n s rfl rfl rfl rfl (fun _ _ => rfl) rfl
  · exact exec_decodeFrame_forgetBlockSize s
  · obtain ⟨t, ht, hcfg, -⟩ := exec_transport_next s hi
    have hinputs : t.withInputs { s.cfg with blockSize := 0 } 0 t.script = t.forgetBlockSize := by rw [← hcfg]; rfl
    have h := exec_transport_withInputs { s.cfg with blockSize := 0 } 0 s hi
    rw [ht] at h ⊢
    exact h.trans (congrArg Host.Outcome.next hinputs)
  · rfl

/-- Every step does, up to `BLOCK_SIZE`: after a reset `L_CFG` is a free value. -/
theorem runKind_forgetBlockSize (k : StepKind) (s : State) :
    mapNext State.forgetBlockSize (runKind k s.forgetBlockSize) = mapNext State.forgetBlockSize (runKind k s) := by
  have op (i : Instr) : mapNext State.forgetBlockSize (exec i s.forgetBlockSize)
      = mapNext State.forgetBlockSize (exec i s) := by
    rw [exec_forgetBlockSize, mapNext_mapNext]
    rfl
  cases k with
  | reset => rfl
  | command c => exact op (decodeCommand c)
  | event e => exact op (decodeEvent e)

theorem runKind_congr_blockSize (k : StepKind) {s s' : State} (h : s.forgetBlockSize = s'.forgetBlockSize) :
    mapNext State.forgetBlockSize (runKind k s) = mapNext State.forgetBlockSize (runKind k s') := by
  rw [← runKind_forgetBlockSize k s, h, runKind_forgetBlockSize]

theorem lineStep_forgetBlockSize (s : State) (l : Line) : lineStep s.forgetBlockSize l = lineStep s l := rfl

theorem step_forgetBlockSize (s : State) :
    mapNext State.forgetBlockSize (step s.forgetBlockSize) = mapNext State.forgetBlockSize (step s) := by
  have htake (c : Cfg) : takeLine s.forgetBlockSize c s.script = takeLine s c s.script :=
    takeLine_congr (lineStep_forgetBlockSize s) c s.script
  obtain h | ⟨k, ls, h | ⟨d, h⟩⟩ := takeLine_inputs s s.script
  · have hblocked := takeLine_none_iff.1 (h s.cfg)
    rw [step_of_blocked hblocked, step_of_blocked (s := s.forgetBlockSize) hblocked]
    rfl
  · rw [step_of_takeLine (h s.cfg), step_of_takeLine (s := s.forgetBlockSize) ((htake _).trans (h _))]
    exact runKind_congr_blockSize k rfl
  · rw [step_of_takeLine (h s.cfg), step_of_takeLine (s := s.forgetBlockSize) ((htake _).trans (h _))]
    exact runKind_congr_blockSize k rfl

/-- Settles O43: a step is, up to `BLOCK_SIZE`, the step of the state that has forgotten it. -/
theorem blockSizeIsReadByNoRule : Obligations.BlockSizeIsReadByNoRule := by
  intro s s' h
  rw [← step_forgetBlockSize s, h, step_forgetBlockSize]

/-! #### `L_CFG` -/

/-- In a direct read an event commutes with replacing `L_CFG`. -/
theorem exec_event_setLCfg {i : Instr} (s : State) (c : Cfg) (hc : s.tReady = true → s.cmd = .readExact)
    (hi : (∃ b, i = .tByte b) ∨ i = .tEos ∨ (∃ k, i = .tErr k) ∨ i = .tErrReserved) :
    exec i (s.setLCfg c) = mapNext (fun t => t.setLCfg c) (exec i s) := by
  have consumed (g : State → State) (hg : s.cmd = .readExact → g (s.setLCfg c) = (g s).setLCfg c) :
      (.next (if s.tReady then g (s.setLCfg c) else s.setLCfg c) : Host.Outcome State Fault Refusal)
        = mapNext (fun t => t.setLCfg c) (.next (if s.tReady then g s else s)) := by
    cases hr : s.tReady with
    | false => rfl
    | true => exact congrArg Host.Outcome.next (hg (hc hr))
  have failed (f : Failure) (h : s.cmd = .readExact) :
      takeFailure f (s.setLCfg c) = (takeFailure f s).setLCfg c := takeFailure_setLCfg f s c (by simp [h])
  obtain ⟨b, rfl⟩ | rfl | ⟨k, rfl⟩ | rfl := hi
  · exact consumed (takeByte b) (takeByte_setLCfg b s c)
  · exact consumed (takeFailure (.shortRead s.rdN s.rdK)) (failed _)
  · exact consumed (takeFailure (.transportError k)) (failed _)
  · exact consumed (takeFailure (.transportError 0)) (failed _)

/-- From `o`, the step with another `L_CFG` either differs in `L_CFG` alone, no frame decode being in
progress after it, or it is the same step, which has written `L_CFG` where a frame decode has started. -/
def LCfgUnread (c : Cfg) (o o' : Host.Outcome State Fault Refusal) : Prop :=
  (o' = mapNext (fun t => t.setLCfg c) o ∧ ∀ t, o = .next t → t.cmd ≠ .decodeFrame)
    ∨ (o' = o ∧ ∀ t, o = .next t → t.cmd = .decodeFrame → t.lCfg = t.cfg)

/-- DECODE_FRAME writes `L_CFG` where it is accepted (R131). -/
theorem exec_decodeFrame_lCfgUnread (s : State) (c : Cfg) (hc : s.cmd ≠ .decodeFrame) :
    LCfgUnread c (exec .decodeFrame s) (exec .decodeFrame (s.setLCfg c)) := by
  by_cases hn : s.cmd = .none
  · by_cases hd : s.fst = .failed
    · rw [(deadDirectionAnswersWithTheLatchedFailure 0 s hn hd).2,
        (deadDirectionAnswersWithTheLatchedFailure 0 (s.setLCfg c) hn hd).2]
      exact .inl ⟨rfl, by rintro t ⟨⟩; exact hc⟩
    · rw [exec_decodeFrame_idle hn hd, exec_decodeFrame_idle (s := s.setLCfg c) hn hd]
      refine .inr ⟨rfl, fun t h _ => ?_⟩
      split at h
      · cases h; rfl
      · cases h
  · rw [exec_command_blocked (.inr rfl) hn, exec_command_blocked (s := s.setLCfg c) (.inr rfl) hn]
    exact .inl ⟨rfl, by rintro t ⟨⟩; exact hc⟩

/-- READ_EXACT starts no frame decode. -/
theorem exec_readExact_cmd {n : Word} {s t : State} (hc : s.cmd ≠ .decodeFrame)
    (h : exec (.readExact n) s = .next t) : t.cmd ≠ .decodeFrame := by
  obtain ⟨-, rfl⟩ | ⟨-, c, r, -, rfl⟩ | ⟨-, -, m, -, -, -, rfl⟩ | ⟨-, -, hi, -⟩ := command_cases (.inl ⟨n, rfl⟩) h
  · exact hc
  · exact hc
  · simp [State.readingWith]
  · cases hi

/-- An event starts no command. -/
theorem exec_event_cmd {i : Instr} {s t : State} (hI : Inv s) (hc : s.cmd ≠ .decodeFrame)
    (hi : (∃ b, i = .tByte b) ∨ i = .tEos ∨ (∃ k, i = .tErr k) ∨ i = .tErrReserved) (h : exec i s = .next t) :
    t.cmd ≠ .decodeFrame := by
  cases hr : s.tReady with
  | false => rwa [transport_blocked hr (transport_of_event hi) h]
  | true =>
    obtain ⟨⟨hcmd, -⟩, -⟩ | ⟨hcmd, -⟩ := transport_progress hI hr (transport_of_event hi) h
    · rwa [hcmd]
    · simp [hcmd]

theorem runKind_lCfgUnread (k : StepKind) {s : State} (c : Cfg) (hI : Inv s) (hc : s.cmd ≠ .decodeFrame) :
    LCfgUnread c (runKind k s) (runKind k (s.setLCfg c)) := by
  cases k with
  | reset => exact .inr ⟨rfl, by rintro t ⟨⟩ h; cases h⟩
  | command w =>
    show LCfgUnread c (exec (decodeCommand w) s) (exec (decodeCommand w) (s.setLCfg c))
    obtain ⟨n, hw⟩ | hw := decodeCommand_cases w <;> rw [hw]
    · exact .inl ⟨exec_readExact_map (g := fun t => t.setLCfg c) n s rfl rfl rfl rfl (fun _ _ => rfl) rfl,
        fun t => exec_readExact_cmd hc⟩
    · exact exec_decodeFrame_lCfgUnread s c hc
  | event e =>
    have hdirect : s.tReady = true → s.cmd = .readExact := by
      intro hr
      have hn := (hI.outstanding ((tReady_iff s).1 hr).1).2.2
      cases hcmd : s.cmd with
      | none => exact absurd hcmd hn
      | readExact => rfl
      | decodeFrame => exact absurd hcmd hc
    exact .inl ⟨exec_event_setLCfg s c hdirect (decodeEvent_cases e),
      fun t => exec_event_cmd hI hc (decodeEvent_cases e)⟩

/-- Outside a frame decode the bytes a FRAME stands for are the plain wire format (log 8). -/
theorem frameBytes_of_not_decodeFrame {s : State} (hc : s.cmd ≠ .decodeFrame) (f : WireFrame) :
    s.frameBytes f = encodeWire f := by
  unfold State.frameBytes
  cases hcmd : s.cmd with
  | none => rfl
  | readExact => rfl
  | decodeFrame => exact absurd hcmd hc

theorem lineStep_setLCfg (s : State) (c : Cfg) (hc : s.cmd ≠ .decodeFrame) (l : Line) :
    lineStep (s.setLCfg c) l = lineStep s l := by
  have hbytes (f : WireFrame) : (s.setLCfg c).frameBytes f = s.frameBytes f := by
    rw [frameBytes_of_not_decodeFrame hc, frameBytes_of_not_decodeFrame (s := s.setLCfg c) hc]
  have hr : (s.setLCfg c).tReady = s.tReady := rfl
  have hcmd : (s.setLCfg c).cmdReady = s.cmdReady := rfl
  simp only [lineStep, hbytes, hr, hcmd]

theorem step_lCfgUnread {s : State} (c : Cfg) (hI : Inv s) (hc : s.cmd ≠ .decodeFrame) :
    LCfgUnread c (step s) (step (s.setLCfg c)) := by
  have hlines := lineStep_setLCfg s c hc
  cases hu : takeLine s s.cfg s.script with
  | none =>
    have hblocked := takeLine_none_iff.1 hu
    rw [step_of_blocked hblocked, step_of_blocked (s := s.setLCfg c) fun l hl => (hlines l).trans (hblocked l hl)]
    exact .inl ⟨rfl, by rintro t ⟨⟩; exact hc⟩
  | some u =>
    rw [step_of_takeLine hu, step_of_takeLine (s := s.setLCfg c) ((takeLine_congr hlines _ _).trans hu)]
    exact runKind_lCfgUnread u.kind c (atStep_inv u hI) hc

/-- Settles O50: `LCfgUnread` says both clauses. -/
theorem lCfgIsWrittenBeforeEveryUse : Obligations.LCfgIsWrittenBeforeEveryUse := by
  intro s c d hI hc
  obtain ⟨h, hcmd⟩ | ⟨h, hwritten⟩ := step_lCfgUnread c hI hc
  · refine ⟨?_, fun t ht hd => absurd hd (hcmd t ht)⟩
    rw [h, mapNext_mapNext]
    rfl
  · exact ⟨congrArg _ h, fun t ht hd => ⟨h.trans ht, hwritten t ht hd⟩⟩

end Sys2Proof.Machine

/-! ### The reference encoder (42_frame_assembler.md R151) -/

namespace Sys2Proof.Machine

/-- A function on the byte sequences of one length that has a right inverse there takes no two of them to one:
there are finitely many. -/
theorem injective_of_rightInverse {n : Nat} {dec enc : List Byte → List Byte}
    (hdec : ∀ x, (dec x).length = x.length) (henc : ∀ x, x.length = n → (enc x).length = n ∧ dec (enc x) = x)
    {x y : List Byte} (hx : x.length = n) (hy : y.length = n) (h : dec x = dec y) : x = y := by
  let d (v : List.Vector Byte n) : List.Vector Byte n := ⟨dec v.1, (hdec v.1).trans v.2⟩
  let e (v : List.Vector Byte n) : List.Vector Byte n := ⟨enc v.1, (henc v.1 v.2).1⟩
  have hright : Function.LeftInverse d e := fun v => Subtype.ext (henc v.1 v.2).2
  have hinj : Function.Injective d := Finite.injective_iff_surjective.2 hright.surjective
  exact congrArg Subtype.val (hinj (a₁ := ⟨x, hx⟩) (a₂ := ⟨y, hy⟩) (Subtype.ext h))

/-- Settles O51: `encrypt_spec`; and where the two calls can be inverted at a length, no two sequences of that
length decrypt to one, so what inverts them is unique. -/
theorem encryptInvertsTheTwoDecryptCalls : Obligations.EncryptInvertsTheTwoDecryptCalls := by
  refine ⟨encrypt_spec, fun cs n enc henc x hx => ?_⟩
  obtain ⟨hlen, hdec⟩ := encrypt_spec cs x
  obtain ⟨hlen', hdec'⟩ := henc x hx
  have hsame : (decryptFrame cs (encrypt cs x)).2 = (decryptFrame cs (enc x)).2 := by
    rw [hdec ⟨enc x, hlen'.trans hx.symm, hdec'⟩, hdec']
  exact injective_of_rightInverse (dec := fun y => (decryptFrame cs y).2) (decryptFrame_length cs) henc
    (hlen.trans hx) hlen' hsame

/-- What the encoder requires (R151). -/
def EncoderAccepts (payload : List Byte) (p : Byte) (padding : List Byte) : Prop :=
  4 ≤ p.toNat ∧ padding.length = p.toNat ∧ 1 + payload.length + p.toNat < 2 ^ 32

theorem encodeFrame_of_accepts (c : Cfg) (seq : Word) (cs : CipherState) {payload : List Byte} {p : Byte}
    {padding : List Byte} (h : EncoderAccepts payload p padding) :
    encodeFrame c seq cs payload p padding = some (frameWire c cs (referenceFrame c seq payload p padding)) :=
  if_pos h

theorem accepts_of_encodeFrame {c : Cfg} {seq : Word} {cs : CipherState} {payload : List Byte} {p : Byte}
    {padding w : List Byte} (h : encodeFrame c seq cs payload p padding = some w) :
    EncoderAccepts payload p padding := by
  by_contra hn
  have hnone : encodeFrame c seq cs payload p padding = none := if_neg hn
  rw [hnone] at h
  cases h

theorem referenceFrame_packetLength (c : Cfg) (seq : Word) {payload : List Byte} {p : Byte} {padding : List Byte}
    (h : EncoderAccepts payload p padding) :
    (referenceFrame c seq payload p padding).packetLength.toNat = 1 + payload.length + p.toNat :=
  (BitVec.toNat_ofNat _ _).trans (Nat.mod_eq_of_lt h.2.2)

theorem referenceFrame_wf (c : Cfg) (seq : Word) {payload : List Byte} {p : Byte} {padding : List Byte}
    (h : EncoderAccepts payload p padding) : (referenceFrame c seq payload p padding).wf = true := by
  obtain ⟨h4, hpad, -⟩ := id h
  refine (wireFrame_wf_iff _).2 ⟨?_, hpad, h4⟩
  rw [referenceFrame_packetLength c seq h, ← hpad]
  rfl

theorem accepts_of_wf {f : WireFrame} (h : f.wf = true) : EncoderAccepts f.payload f.paddingLength f.padding := by
  obtain ⟨hlen, hpad, h4⟩ := (wireFrame_wf_iff f).1 h
  have := f.packetLength.isLt
  exact ⟨h4, hpad, by omega⟩

/-- A well-formed frame whose MAC is the computed one is the encoder's frame for its fields. -/
theorem referenceFrame_of_wf (c : Cfg) (seq : Word) {f : WireFrame} (h : f.wf = true)
    (hmac : f.mac = senderMac c seq (be32bytes f.packetLength) (frameBody f)) :
    referenceFrame c seq f.payload f.paddingLength f.padding = f := by
  obtain ⟨hlen, hpad, -⟩ := (wireFrame_wf_iff f).1 h
  have hpkt : BitVec.ofNat 32 (1 + f.payload.length + f.paddingLength.toNat) = f.packetLength := by
    rw [← hpad, ← hlen, BitVec.ofNat_toNat, BitVec.setWidth_eq]
  cases f with
  | mk len p payload padding mac =>
    simp only [referenceFrame, hpkt]
    exact congrArg (WireFrame.mk len p payload padding) hmac.symm

/-- Settles O52. -/
theorem frameStandsForTheReferenceEncoding : Obligations.FrameStandsForTheReferenceEncoding := by
  intro c seq cs
  refine ⟨?_, fun f hwf hmac => ?_⟩
  · intro payload p padding f
    refine ⟨fun hn => if_neg hn, fun h4 hpad hlen => ?_⟩
    have h : EncoderAccepts payload p padding := ⟨h4, hpad, hlen⟩
    exact ⟨encodeFrame_of_accepts c seq cs h, referenceFrame_wf c seq h, referenceFrame_packetLength c seq h,
      rfl, rfl, rfl, fun ha => if_pos ha, fun ha => if_neg (by simp [ha]), fun ha => encodeWire_eq_frameWire ha cs f⟩
  · rw [encodeFrame_of_accepts c seq cs (accepts_of_wf hwf), referenceFrame_of_wf c seq hwf hmac]

end Sys2Proof.Machine

/-! ### Whole reads (40_exact_reader.md R108) -/

namespace Sys2Proof.Machine

/-- A state with every register of the read and of the frame at its reset value, no command and no failure. -/
def State.atRest (s : State) : State :=
  { s with
    cmd := .none, fst := .awaitingLength, rdActive := false, rdN := 0, rdK := 0, abuf := [],
    pktLen := 0, padLen := 0, lenf := { b0 := 0, b1 := 0, b2 := 0, b3 := 0 }, body := [] }

/-- An idle state that meets the invariants is at rest already (R45). -/
theorem atRest_of_idle {s : State} (hI : Inv s) (hi : s.Idle) : s.atRest = s := by
  obtain ⟨hc, hf⟩ := hi
  obtain ⟨-, hpkt, hpad, hlenf, hbody⟩ := hI.idle hc (by simp [hf])
  have hact : s.rdActive = false := by
    cases h : s.rdActive with
    | false => rfl
    | true => exact absurd hc (hI.outstanding h).2.2
  obtain ⟨hn, hk, ha⟩ := hI.noRead hact
  cases s
  simp_all [State.atRest]

/-- A transport failure ends a read that lacks bytes; what follows stays (R105, R106). -/
theorem offerEvents_failureEvent {u : State} {n : Word} {l : List Byte} {e : TEvent} {f : Failure}
    {rest : List TEvent} (h : l.length < n.toNat)
    (he : e = .eos ∧ f = .shortRead n (BitVec.ofNat 32 l.length) ∨ ∃ k, e = .err k ∧ f = .transportError k) :
    offerEvents (l.map .byte ++ e :: rest) (u.readingWith n) = (takeFailure f (u.collectedWith n l), rest) := by
  have hr : (u.collectedWith n l).tReady = true := collectedWith_tReady h
  rw [offerEvents_partial h]
  obtain ⟨rfl, rfl⟩ | ⟨k, rfl, rfl⟩ := he
  · rw [offerEvents_eos hr]
    exact offerEvents_blocked (takeFailure_ends _ _).2.1
  · rw [offerEvents_err hr]
    exact offerEvents_blocked (takeFailure_ends _ _).2.1

/-- All that the function of R108 can answer, with what the events do to an outstanding read then. -/
theorem read_cases {n : Word} (h0 : n ≠ 0) (E : List TEvent) (u : State) :
    (∃ l rest, readExactFn n E = .ok l rest ∧ l.length = n.toNat
        ∧ offerEvents E (u.readingWith n)
          = offerEvents rest (readDone l { u with rdN := n, cur := u.cur + n.toNat }))
      ∨ (∃ l : List Byte, ∃ f rest, readExactFn n E = .fail f l.length
        ∧ offerEvents E (u.readingWith n) = (takeFailure f (u.collectedWith n l), rest))
      ∨ ∃ l : List Byte, readExactFn n E = .waits l.length ∧ l.length < n.toNat
        ∧ offerEvents E (u.readingWith n) = (u.collectedWith n l, []) := by
  obtain ⟨l, rest, hfn, hlen, rfl⟩ | ⟨l, hlt, ⟨rest, rfl, hfn⟩ | ⟨k, rest, rfl, hfn⟩ | ⟨rfl, hfn⟩⟩ :=
    readExactFn_cases n E
  · exact .inl ⟨l, rest, hfn, hlen, offerEvents_full h0 hlen⟩
  · exact .inr (.inl ⟨l, _, rest, hfn, offerEvents_failureEvent hlt (.inl ⟨rfl, rfl⟩)⟩)
  · exact .inr (.inl ⟨l, _, rest, hfn, offerEvents_failureEvent hlt (.inr ⟨k, rfl, rfl⟩)⟩)
  · refine .inr (.inr ⟨l, hfn, hlt, ?_⟩)
    have h := offerEvents_partial (u := u) (E := []) hlt
    rwa [List.append_nil] at h

/-- A failure in a direct read keeps the cipher state (R136). -/
theorem takeFailure_direct (f : Failure) {u : State} (hc : u.cmd = .readExact) (n : Word) (l : List Byte) :
    takeFailure f (u.collectedWith n l)
      = State.deadWith { u with cur := u.cur + l.length } (.readExact n) (failureRecord f) := by
  have hc' : (u.collectedWith n l).cmd = .readExact := hc
  rw [takeFailure_eq, loseCipher_of_not (.inl (by simp [hc'])), command_readExact hc']
  rfl

/-- Settles O44: each answer of the function of R108 is one thing the events do to the read. -/
theorem readExactRunAgreesWithItsFunction : Obligations.ReadExactRunAgreesWithItsFunction := by
  intro n E s hI hi h0 hn
  refine ⟨_, readExactStartsTheRead n s hi.1 (by simp [hi.2]) h0 hn, ?_⟩
  obtain ⟨l, rest, hfn, hlen, hrun⟩ | ⟨l, f, rest, hfn, hrun⟩ | ⟨l, hfn, hlt, hrun⟩ :=
    read_cases h0 E { s with cmd := .readExact } <;> rw [hfn]
  · refine ⟨hlen, hrun.trans ?_⟩
    rw [offerEvents_blocked (by exact tReady_false_of_inactive rfl)]
    rw [← atRest_of_idle hI hi]
    rfl
  · exact ⟨rest, hrun.trans (congrArg (·, rest) (takeFailure_direct f rfl n l))⟩
  · exact ⟨_, hrun, rfl, collectedWith_tReady hlt, rfl, rfl⟩

end Sys2Proof.Machine

/-! ### Whole frames (42_frame_assembler.md R148) -/

namespace Sys2Proof.Machine

/-- `u` is a state of the DECODE_FRAME that has begun in `s` and has consumed `k` bytes: the configuration was
sampled, and everything but the command, the read, the frame registers, `CS` and `CUR` is as it was in `s`. -/
def InFrame (s u : State) (k : Nat) : Prop :=
  u.cmd = .decodeFrame ∧ u.lCfg = s.cfg ∧ u.cur = s.cur + k ∧ u.seq = s.seq ∧ u.responses = s.responses
    ∧ u.err = s.err ∧ u.cfg = s.cfg ∧ u.script = s.script ∧ u.bufCap = s.bufCap ∧ u.csInit = s.csInit
    ∧ u.freeCount = s.freeCount

/-- What the answer of the function of R148 says of the state that a run from `s` ends in and of the events left
with the transport. -/
def FrameOutcome (s : State) : FrameResult → State × List TEvent → Prop
  | .ok payload seq cs k rest, p =>
    p = ({ s with lCfg := s.cfg, cs := cs, seq := seq, cur := s.cur + k,
                  responses := s.responses ++ [⟨.decodeFrame, .ok payload⟩] }, rest)
  | .fail f k, p =>
    p.1.cmd = .none ∧ p.1.fst = .failed ∧ p.1.err = failureRecord f
      ∧ p.1.responses = s.responses ++ [⟨.decodeFrame, .fail (failureRecord f)⟩] ∧ p.1.seq = s.seq
      ∧ p.1.cur = s.cur + k ∧ p.1.tReady = false
  | .waits k, p =>
    p.2 = [] ∧ p.1.cmd = .decodeFrame ∧ p.1.tReady = true ∧ p.1.responses = s.responses ∧ p.1.seq = s.seq
      ∧ p.1.cur = s.cur + k

theorem InFrame.consume {s u : State} {k : Nat} (h : InFrame s u k) (n : Nat) :
    InFrame s { u with cur := u.cur + n } (k + n) := by
  obtain ⟨hc, hlCfg, hcur, hrest⟩ := h
  refine ⟨hc, hlCfg, ?_, hrest⟩
  show u.cur + n = s.cur + (k + n)
  omega

/-- A frame that has failed (R170). -/
theorem deadWith_outcome {s u : State} {k : Nat} (h : InFrame s u k) (f : Failure) (E : List TEvent) :
    FrameOutcome s (.fail f k) (offerEvents E (u.deadWith .decodeFrame (failureRecord f))) := by
  obtain ⟨-, -, hcur, hseq, hresp, -⟩ := h
  rw [offerEvents_deadWith]
  exact ⟨rfl, rfl, rfl, congrArg (· ++ _) hresp, hseq, hcur, rfl⟩

/-- A frame that has committed, from an idle state (R145). -/
theorem committedWith_outcome {s u : State} {k : Nat} (hrest : s.atRest = s) (h : InFrame s u k)
    (p : List Byte) (E : List TEvent) :
    FrameOutcome s (.ok p (u.seq + 1) u.cs k E) (offerEvents E (u.committedWith p)) := by
  obtain ⟨-, hlCfg, hcur, hseq, hresp, herr, hcfg, hscript, hcap, hinit, hfree⟩ := h
  rw [offerEvents_blocked (tReady_false_of_inactive rfl)]
  refine congrArg (·, E) ?_
  rw [← hrest]
  simp only [State.committedWith, State.atRest, hlCfg, hcur, hseq, hresp, herr, hcfg, hscript, hcap, hinit, hfree]

/-- Where a read of a frame does not complete, the outcome is the failure or the wait, with the bytes of the
earlier reads consumed too. -/
theorem frameRead_cases {s u : State} {k : Nat} (h : InFrame s u k) {n : Word} (h0 : n ≠ 0) (E : List TEvent) :
    (∃ l rest, readExactFn n E = .ok l rest ∧ l.length = n.toNat
        ∧ offerEvents E (u.readingWith n)
          = offerEvents rest (continueFrame l (clearRead { u with cur := u.cur + n.toNat })))
      ∨ (∃ f j, readExactFn n E = .fail f j ∧ FrameOutcome s (.fail f (k + j)) (offerEvents E (u.readingWith n)))
      ∨ ∃ j, readExactFn n E = .waits j ∧ FrameOutcome s (.waits (k + j)) (offerEvents E (u.readingWith n)) := by
  obtain ⟨hc, -, hcur, hseq, hresp, -⟩ := h
  obtain ⟨l, rest, hfn, hlen, hrun⟩ | ⟨l, f, rest, hfn, hrun⟩ | ⟨l, hfn, hlt, hrun⟩ := read_cases h0 E u
  · refine .inl ⟨l, rest, hfn, hlen, hrun.trans ?_⟩
    rw [readDone_frame (by exact hc)]
    rfl
  · refine .inr (.inl ⟨f, _, hfn, ?_⟩)
    obtain ⟨cs, j, hdead, -⟩ := takeFailure_deadWith f (u.collectedWith n l)
    have hcmd : (u.collectedWith n l).command = .decodeFrame := command_decodeFrame hc
    rw [hrun, hdead, hcmd]
    refine ⟨rfl, rfl, rfl, congrArg (· ++ _) hresp, hseq, ?_, rfl⟩
    show u.cur + l.length = _
    omega
  · refine .inr (.inr ⟨_, hfn, ?_⟩)
    rw [hrun]
    refine ⟨rfl, hc, collectedWith_tReady hlt, hresp, hseq, ?_⟩
    show u.cur + l.length = _
    omega

/-! #### The function of R148, stage by stage -/

section
variable (c : Cfg) (seq : Word) (cs : CipherState) (lenf : Bytes4) (len : Word) (body : List Byte) (E : List TEvent)

/-- The padding check of R148 is that of R138 and R139. -/
theorem finishFrameFn_bad {f : Failure} (h : paddingFault body len = some f) :
    finishFrameFn c seq cs lenf len body E = .fail f (4 + len.toNat) := by
  unfold paddingFault at h
  unfold finishFrameFn
  by_cases h0 : len = 0
  · rw [if_pos h0] at h ⊢
    cases h
    simp [h0]
  · rw [if_neg h0] at h ⊢
    by_cases h4 : (body.headD 0).toNat < 4
    · rw [if_pos h4] at h ⊢
      cases h
      rfl
    · rw [if_neg h4] at h ⊢
      by_cases hp : 1 + (body.headD 0).toNat > len.toNat
      · rw [if_pos hp] at h ⊢
        cases h
        rfl
      · rw [if_neg hp] at h
        cases h

/-- What R148 does with the result of the MAC read. -/
def finishMac (r : ReadResult) : FrameResult :=
  match r with
  | .fail f k => .fail f (4 + len.toNat + k)
  | .waits k => .waits (4 + len.toNat + k)
  | .ok m E' =>
    if Config.macCompute seq lenf body = m then
      .ok (slice body 1 (len.toNat - (body.headD 0).toNat)) (seq + 1) cs (4 + len.toNat + c.macLength.toNat) E'
    else .fail .integrityViolation (4 + len.toNat + c.macLength.toNat)

theorem finishFrameFn_good (h : paddingFault body len = none) :
    finishFrameFn c seq cs lenf len body E =
      if c.macActive = false then
        .ok (slice body 1 (len.toNat - (body.headD 0).toNat)) (seq + 1) cs (4 + len.toNat) E
      else finishMac c seq cs lenf len body (readExactFn c.macLength E) := by
  obtain ⟨h0, h4, hp⟩ := paddingFault_none.1 h
  unfold finishFrameFn
  rw [if_neg h0, if_neg (by omega), if_neg (by omega)]
  cases c.macActive with
  | false => rfl
  | true =>
    cases readExactFn c.macLength E with
    | fail f k => rfl
    | waits k => rfl
    | ok m E' => simp [finishMac, ite_not]

end

/-- A read of no bytes is done at once (R102). -/
theorem readExactFn_zero (E : List TEvent) : readExactFn 0 E = .ok [] E := rfl

/-- What R148 does with the result of the body read; `s` holds the cipher state and the configuration. -/
def finishBody (s : State) (lenf : Bytes4) (r : ReadResult) : FrameResult :=
  match r with
  | .fail f k => .fail f (4 + k)
  | .waits k => .waits (4 + k)
  | .ok b E => finishFrameFn s.lCfg s.seq (s.csAfter b) lenf (be32 lenf) (s.plain b) E

/-- What R148 does with the result of the length read. -/
def finishLength (s : State) (r : ReadResult) : FrameResult :=
  match r with
  | .fail f k => .fail f k
  | .waits k => .waits k
  | .ok l E =>
    if lengthInBounds s.lCfg (be32 (bytes4OfList (s.plain l))) then
      finishBody { s with cs := s.csAfter l } (bytes4OfList (s.plain l))
        (readExactFn (be32 (bytes4OfList (s.plain l))) E)
    else .fail (.protocolViolation .lengthOutOfBounds) 4

/-- The bounds check of R148 is that of R134. -/
theorem outOfBounds_iff (c : Cfg) (len : Word) :
    (len < c.minFrameSize ∨ len > c.maxFrameSize) ↔ ¬ lengthInBounds c len = true := by
  rw [Bool.not_eq_true, lengthInBounds_eq_false_iff]
  rfl

/-- A `Decrypt` call where a cipher is active (R133, R137), as R148 writes it. -/
theorem decrypt_eq (s : State) (x : List Byte) :
    (if s.lCfg.cipherActive then decrypt s.cs x else (s.cs, x)) = (s.csAfter x, s.plain x) := by
  unfold State.csAfter State.plain
  split <;> rfl

/-- The function of R148 in the words of the stages. -/
theorem decodeFrameFn_eq (s : State) (E : List TEvent) :
    decodeFrameFn s.lCfg s.seq s.cs E = finishLength s (readExactFn 4 E) := by
  unfold decodeFrameFn finishLength
  cases readExactFn 4 E with
  | fail f k => rfl
  | waits k => rfl
  | ok l E1 =>
    simp only [decrypt_eq s l]
    by_cases hb : lengthInBounds s.lCfg (be32 (bytes4OfList (s.plain l))) = true
    · rw [if_pos hb, if_neg (mt (outOfBounds_iff _ _).1 (not_not.2 hb))]
      unfold finishBody
      cases readExactFn (be32 (bytes4OfList (s.plain l))) E1 with
      | fail f k => rfl
      | waits k => rfl
      | ok b E2 =>
        have h := decrypt_eq { s with cs := s.csAfter l } b
        simp only at h
        simp only [h]
    · rw [if_neg hb, if_pos ((outOfBounds_iff _ _).2 hb)]

/-! #### The stages agree with it -/

/-- The MAC read (R141, R143). -/
theorem macRead_outcome {s u : State} (hrest : s.atRest = s) (h : InFrame s u (4 + u.pktLen.toNat))
    (hf : u.fst = .awaitingMac) (hp : u.padLen = u.body.headD 0) (h0 : u.lCfg.macLength ≠ 0) (E : List TEvent) :
    FrameOutcome s (finishMac u.lCfg u.seq u.cs u.lenf u.pktLen u.body (readExactFn u.lCfg.macLength E))
      (offerEvents E (u.readingWith u.lCfg.macLength)) := by
  obtain ⟨m, rest, hfn, -, hrun⟩ | ⟨f, j, hfn, hout⟩ | ⟨j, hfn, hout⟩ := frameRead_cases h h0 E <;> rw [hfn]
  · have h' := h.consume u.lCfg.macLength.toNat
    rw [hrun, continueFrame_mac (s := { u with cur := u.cur + u.lCfg.macLength.toNat }) hf, macStage_clearRead, hp]
    by_cases hm : Config.macCompute u.seq u.lenf u.body = m
    · rw [finishMac, if_pos hm, if_pos hm]
      exact committedWith_outcome hrest h' _ rest
    · rw [finishMac, if_neg hm, if_neg hm]
      exact deadWith_outcome h' .integrityViolation rest
  · exact hout
  · exact hout

/-- The body stage (R137 to R141); `u` still holds the read. -/
theorem bodyStage_outcome {s u : State} (hrest : s.atRest = s) (h : InFrame s u (4 + u.pktLen.toNat))
    (b : List Byte) (E : List TEvent) :
    FrameOutcome s (finishFrameFn u.lCfg u.seq (u.csAfter b) u.lenf u.pktLen (u.plain b) E)
      (offerEvents E (bodyStage b (clearRead u))) := by
  have h' : InFrame s { u with cs := u.csAfter b } (4 + u.pktLen.toNat) := h
  cases hp : paddingFault (u.plain b) u.pktLen with
  | some f =>
    rw [finishFrameFn_bad _ _ _ _ _ _ _ hp, bodyStage_bad hp]
    exact deadWith_outcome h' f E
  | none =>
    rw [finishFrameFn_good _ _ _ _ _ _ _ hp]
    by_cases hm : u.lCfg.macActive = true
    · rw [if_neg (by simp [hm])]
      by_cases h0 : u.lCfg.macLength = 0
      · rw [bodyStage_emptyMac hp hm h0, h0, readExactFn_zero, finishMac, h0]
        by_cases hmac : Config.macCompute u.seq u.lenf (u.plain b) = []
        · rw [if_pos hmac, if_pos hmac]
          exact committedWith_outcome hrest h' _ E
        · rw [if_neg hmac, if_neg hmac]
          exact deadWith_outcome h' .integrityViolation E
      · rw [bodyStage_startsMac hp hm h0]
        exact macRead_outcome (u := { u with cs := u.csAfter b, fst := .awaitingMac, body := u.plain b,
                                             padLen := (u.plain b).headD 0 }) hrest h rfl rfl h0 E
    · have hm' : u.lCfg.macActive = false := Bool.eq_false_iff.2 hm
      rw [if_pos hm', bodyStage_commits hp hm']
      exact committedWith_outcome hrest h' _ E

/-- The body read (R135). -/
theorem bodyRead_outcome {s u : State} (hrest : s.atRest = s) (h : InFrame s u 4) (hf : u.fst = .awaitingBody)
    (hlen : u.pktLen = be32 u.lenf) (h0 : u.pktLen ≠ 0) (E : List TEvent) :
    FrameOutcome s (finishBody u u.lenf (readExactFn u.pktLen E)) (offerEvents E (u.readingWith u.pktLen)) := by
  obtain ⟨b, rest, hfn, -, hrun⟩ | ⟨f, j, hfn, hout⟩ | ⟨j, hfn, hout⟩ := frameRead_cases h h0 E <;> rw [hfn]
  · rw [hrun, continueFrame_body (s := { u with cur := u.cur + u.pktLen.toNat }) hf, finishBody, ← hlen]
    exact bodyStage_outcome hrest (h.consume u.pktLen.toNat) b rest
  · exact hout
  · exact hout

/-- The length read (R133 to R135). -/
theorem lengthRead_outcome {s u : State} (hrest : s.atRest = s) (h : InFrame s u 0) (hf : u.fst = .awaitingLength)
    (E : List TEvent) :
    FrameOutcome s (finishLength u (readExactFn 4 E)) (offerEvents E (u.readingWith 4)) := by
  obtain ⟨l, rest, hfn, -, hrun⟩ | ⟨f, j, hfn, hout⟩ | ⟨j, hfn, hout⟩ :=
    frameRead_cases h (n := 4) (by decide) E <;> rw [hfn]
  · have h' : InFrame s { u with cur := u.cur + 4 } 4 := h.consume 4
    rw [hrun]
    show FrameOutcome s _ (offerEvents rest (continueFrame l (clearRead { u with cur := u.cur + 4 })))
    rw [continueFrame_length (s := { u with cur := u.cur + 4 }) hf, finishLength]
    by_cases hb : lengthInBounds u.lCfg (be32 (bytes4OfList (u.plain l))) = true
    · rw [if_pos hb]
      by_cases h0 : be32 (bytes4OfList (u.plain l)) = 0
      · rw [lengthStage_zero (s := { u with cur := u.cur + 4 }) hb h0, h0, readExactFn_zero, finishBody, h0]
        exact bodyStage_outcome (u := { u with cur := u.cur + 4, cs := u.csAfter l, fst := .awaitingBody,
                                               lenf := bytes4OfList (u.plain l), pktLen := 0 }) hrest h' [] rest
      · rw [lengthStage_startsBody (s := { u with cur := u.cur + 4 }) hb h0]
        exact bodyRead_outcome (u := { u with cur := u.cur + 4, cs := u.csAfter l, fst := .awaitingBody,
                                              lenf := bytes4OfList (u.plain l),
                                              pktLen := be32 (bytes4OfList (u.plain l)) }) hrest h' rfl rfl h0 rest
    · rw [if_neg hb, lengthStage_outOfBounds (s := { u with cur := u.cur + 4 }) (Bool.eq_false_iff.2 hb)]
      exact deadWith_outcome (u := { u with cs := u.csAfter l, cur := u.cur + 4 }) h' _ rest
  · rw [Nat.zero_add] at hout
    exact hout
  · rw [Nat.zero_add] at hout
    exact hout

/-- The DECODE_FRAME that starts in an idle state: the configuration sampled and the length read outstanding
(R131). -/
def State.begun (s : State) : State := State.readingWith { s with cmd := .decodeFrame, lCfg := s.cfg } 4

theorem exec_decodeFrame_begins {s : State} (hi : s.Idle) (hw : cfgWellFormed s.bufCap s.cfg = true) :
    exec .decodeFrame s = .next s.begun := by
  rw [exec_decodeFrame_idle hi.1 (by simp [hi.2]), if_pos hw]
  rfl

/-- DECODE_FRAME and the events after it are the function of R148. -/
theorem begun_outcome {s : State} (hI : Inv s) (hi : s.Idle) (E : List TEvent) :
    FrameOutcome s (decodeFrameFn s.cfg s.seq s.cs E) (offerEvents E s.begun) := by
  have hbegun : InFrame s { s with cmd := .decodeFrame, lCfg := s.cfg } 0 :=
    ⟨rfl, rfl, rfl, rfl, rfl, rfl, rfl, rfl, rfl, rfl, rfl⟩
  have h := decodeFrameFn_eq { s with cmd := .decodeFrame, lCfg := s.cfg } E
  exact h ▸ lengthRead_outcome (atRest_of_idle hI hi) hbegun hi.2 E

/-- Settles O45: `FrameOutcome` says the three clauses. -/
theorem decodeFrameRunAgreesWithItsFunction : Obligations.DecodeFrameRunAgreesWithItsFunction := by
  intro E s hI hi hw
  refine ⟨s.begun, exec_decodeFrame_begins hi hw, ?_⟩
  have hout := begun_outcome hI hi E
  cases h : decodeFrameFn s.cfg s.seq s.cs E with
  | ok payload seq cs k rest =>
    rw [h] at hout
    exact hout
  | fail f k =>
    rw [h] at hout
    exact ⟨_, _, rfl, hout⟩
  | waits k =>
    rw [h] at hout
    obtain ⟨hnil, hout⟩ := hout
    exact ⟨_, Prod.ext rfl hnil, hout⟩

end Sys2Proof.Machine

/-! ### A whole well-formed frame, and the round-trip law (42_frame_assembler.md R149, R151, R152) -/

namespace Sys2Proof.Machine

/-- `s` after a frame of `k` bytes that left the cipher state `cs`, but for the answer and `SEQ`. -/
def State.afterFrame (s : State) (cs : CipherState) (k : Nat) : State :=
  { s with lCfg := s.cfg, cs := cs, cur := s.cur + k }

theorem committedWith_of_inFrame {s u : State} {k : Nat} (h : InFrame s u k) (p : List Byte) :
    u.committedWith p = (s.afterFrame u.cs k).committedWith p := by
  obtain ⟨-, hlCfg, hcur, hseq, hresp, herr, hcfg, hscript, hcap, hinit, hfree⟩ := h
  simp only [State.committedWith, State.afterFrame, hlCfg, hcur, hseq, hresp, herr, hcfg, hscript, hcap, hinit,
    hfree]

theorem deadWith_of_inFrame {s u : State} {k : Nat} (h : InFrame s u k) (c : Command) (r : FailureRecord) :
    u.deadWith c r = (s.afterFrame u.cs k).deadWith c r := by
  obtain ⟨-, hlCfg, hcur, hseq, hresp, -, hcfg, hscript, hcap, hinit, hfree⟩ := h
  simp only [State.deadWith, State.afterFrame, hlCfg, hcur, hseq, hresp, hcfg, hscript, hcap, hinit, hfree]

/-- What a whole frame of `k` bytes ends in: it commits with its payload unless a MAC is active and is not the
computed one (R143, R149). -/
def State.frameEnd (s : State) (f : WireFrame) (cs : CipherState) (k : Nat) : State :=
  if s.cfg.macActive = true ∧ Config.macCompute s.seq (be32bytes f.packetLength) (frameBody f) ≠ f.mac then
    (s.afterFrame cs k).deadWith .decodeFrame (failureRecord .integrityViolation)
  else (s.afterFrame cs k).committedWith f.payload

/-- A frame that fits the configuration inputs of `s`, and can be sent under its cipher (R134, R151). -/
structure FrameFits (s : State) (f : WireFrame) : Prop where
  wf : f.wf = true
  lower : s.cfg.minFrameSize.toNat ≤ f.packetLength.toNat
  upper : f.packetLength.toNat ≤ s.cfg.maxFrameSize.toNat
  macLength : f.mac.length = if s.cfg.macActive then s.cfg.macLength.toNat else 0
  encryptable : s.cfg.cipherActive = true → Encryptable s.cs (bytes4List (be32bytes f.packetLength) ++ frameBody f)

theorem packetLength_ne_zero {f : WireFrame} (h : f.wf = true) : f.packetLength ≠ 0 := by
  obtain ⟨hlen, -⟩ := (wireFrame_wf_iff f).1 h
  intro h0
  rw [h0] at hlen
  simp at hlen
  omega

/-- The body of a well-formed frame passes the padding check (R138, R139). -/
theorem paddingFault_frameBody {f : WireFrame} (h : f.wf = true) :
    paddingFault (frameBody f) f.packetLength = none := by
  obtain ⟨hlen, hpad, h4⟩ := (wireFrame_wf_iff f).1 h
  refine paddingFault_none.2 ⟨packetLength_ne_zero h, h4, ?_⟩
  show 1 + f.paddingLength.toNat ≤ _
  omega

/-- A whole read of a frame goes on with the assembler. -/
theorem offerEvents_frameRead {u : State} {n : Word} {l : List Byte} (hc : u.cmd = .decodeFrame) (h0 : n ≠ 0)
    (h : l.length = n.toNat) (E : List TEvent) :
    offerEvents (l.map .byte ++ E) (u.readingWith n)
      = offerEvents E (continueFrame l (clearRead { u with cur := u.cur + n.toNat })) := by
  rw [offerEvents_full h0 h, readDone_frame (by exact hc)]
  rfl

/-- The comparison of the MACs (R143) is what `frameEnd` says where a MAC is active. -/
theorem frameEnd_of_macActive {s u : State} {f : WireFrame} {k : Nat} {body p : List Byte} (h : InFrame s u k)
    (hm : u.lCfg.macActive = true) (hlenf : u.lenf = be32bytes f.packetLength) (hbody : body = frameBody f)
    (hp : p = f.payload) :
    (if Config.macCompute u.seq u.lenf body = f.mac then u.committedWith p
      else u.deadWith .decodeFrame (failureRecord .integrityViolation)) = s.frameEnd f u.cs k := by
  have hlCfg : u.lCfg = s.cfg := h.2.1
  have hseq : u.seq = s.seq := h.2.2.2.1
  rw [committedWith_of_inFrame h, deadWith_of_inFrame h, hseq, hlenf, hbody, hp, State.frameEnd]
  by_cases hmac : Config.macCompute s.seq (be32bytes f.packetLength) (frameBody f) = f.mac
  · rw [if_pos hmac, if_neg (fun hn => hn.2 hmac)]
  · rw [if_neg hmac, if_pos ⟨hlCfg ▸ hm, hmac⟩]

/-- Where no MAC is active a frame commits (R145). -/
theorem frameEnd_of_macInactive {s u : State} {f : WireFrame} {k : Nat} (h : InFrame s u k)
    (hm : u.lCfg.macActive = false) : u.committedWith f.payload = s.frameEnd f u.cs k := by
  have hlCfg : u.lCfg = s.cfg := h.2.1
  rw [State.frameEnd, if_neg (by simp [← hlCfg, hm]), committedWith_of_inFrame h]

/-- However it ends, a frame leaves no read outstanding. -/
theorem frameEnd_tReady (s : State) (f : WireFrame) (cs : CipherState) (k : Nat) :
    (s.frameEnd f cs k).tReady = false := by
  unfold State.frameEnd
  split <;> exact tReady_false_of_inactive rfl

/-- The body of a frame, and the MAC that follows it, end the frame (R137 to R145). -/
theorem offerEvents_afterBody {s u : State} {f : WireFrame} {b : List Byte} (hf : FrameFits s f)
    (h : InFrame s u (4 + f.packetLength.toNat)) (hlenf : u.lenf = be32bytes f.packetLength)
    (hpkt : u.pktLen = f.packetLength) (hplain : u.plain b = frameBody f) :
    offerEvents (f.mac.map .byte) (bodyStage b (clearRead u))
      = (s.frameEnd f (u.csAfter b) (4 + f.packetLength.toNat + f.mac.length), []) := by
  have hp : paddingFault (u.plain b) u.pktLen = none := by rw [hplain, hpkt, paddingFault_frameBody hf.wf]
  have hslice : slice (u.plain b) 1 (u.pktLen.toNat - ((u.plain b).headD 0).toNat) = f.payload := by
    rw [hplain, hpkt]
    exact payload_slice hf.wf
  have hlen := hf.macLength
  rw [← show u.lCfg = s.cfg from h.2.1] at hlen
  have h' : InFrame s { u with cs := u.csAfter b } (4 + f.packetLength.toNat) := h
  cases hm : u.lCfg.macActive with
  | false =>
    have hnil : f.mac = [] := by simpa [hm] using hlen
    rw [bodyStage_commits hp hm, hslice, frameEnd_of_macInactive h' hm, hnil]
    rfl
  | true =>
    rw [hm, if_pos rfl] at hlen
    by_cases h0 : u.lCfg.macLength = 0
    · have hnil : f.mac = [] := by simpa [h0] using hlen
      rw [bodyStage_emptyMac hp hm h0]
      have hend := frameEnd_of_macActive h' hm hlenf hplain hslice
      rw [hnil] at hend ⊢
      exact congrArg (·, []) hend
    · let v : State := { u with cs := u.csAfter b, fst := .awaitingMac, body := u.plain b,
                                padLen := (u.plain b).headD 0 }
      have hv : InFrame s v (4 + f.packetLength.toNat) := h
      have hrun := offerEvents_frameRead (u := v) hv.1 h0 hlen []
      rw [List.append_nil, continueFrame_mac (s := { v with cur := v.cur + u.lCfg.macLength.toNat }) rfl,
        macStage_clearRead, frameEnd_of_macActive (hv.consume _) hm hlenf hplain hslice,
        offerEvents_blocked (frameEnd_tReady _ _ _ _), ← hlen] at hrun
      rw [bodyStage_startsMac hp hm h0]
      exact hrun

/-- The plain bytes of a read are those the sender enciphered. -/
theorem plain_eq {u : State} {x y : List Byte} (hplain : u.lCfg.cipherActive = false → x = y)
    (hcipher : u.lCfg.cipherActive = true → (decrypt u.cs x).2 = y) : u.plain x = y := by
  unfold State.plain
  split
  · next h => exact hcipher h
  · next h => exact hplain (Bool.eq_false_iff.2 h)

theorem frameWire_length {f : WireFrame} (h : f.wf = true) (c : Cfg) (cs : CipherState) :
    (frameWire c cs f).length = 4 + f.packetLength.toNat + f.mac.length := by
  obtain ⟨a, b, ha, hb, hw, -⟩ := frameWire_parts h c cs
  rw [hw, List.length_append, List.length_append, ha, hb, Nat.add_assoc]

/-- The DECODE_FRAME that starts in `s`, its four length bytes counted and not yet looked at. -/
def State.lengthCounted (s : State) : State := { s with cmd := .decodeFrame, lCfg := s.cfg, cur := s.cur + 4 }

/-- The same once the length bytes `a` have been found to be the length field of `f` (R133). -/
def State.bodyAwaited (s : State) (f : WireFrame) (a : List Byte) : State :=
  { s.lengthCounted with
    cs := s.lengthCounted.csAfter a, fst := .awaitingBody, lenf := be32bytes f.packetLength, pktLen := f.packetLength }

/-- The cipher state after the two `Decrypt` calls of a frame (R133, R137). -/
theorem bodyAwaited_csAfter (s : State) (f : WireFrame) {a : List Byte} (ha : a.length = 4) (b : List Byte) :
    (s.bodyAwaited f a).csAfter b = if s.cfg.cipherActive then (decryptFrame s.cs (a ++ b)).1 else s.cs := by
  simp only [State.csAfter, State.bodyAwaited, State.lengthCounted, decryptFrame, List.take_left' ha,
    List.drop_left' ha]
  by_cases hc : s.cfg.cipherActive = true
  · simp [hc]
  · simp [hc]

/-- The length field of a frame that fits starts the read of its body (R133 to R135). -/
theorem offerEvents_frameLength {s : State} {f : WireFrame} {a : List Byte} (hi : s.Idle) (hf : FrameFits s f)
    (ha : a.length = 4) (hplain : s.lengthCounted.plain a = bytes4List (be32bytes f.packetLength))
    (E : List TEvent) :
    offerEvents (a.map .byte ++ E) s.begun = offerEvents E ((s.bodyAwaited f a).readingWith f.packetLength) := by
  have hlenf : bytes4OfList (s.lengthCounted.plain a) = be32bytes f.packetLength := by
    rw [hplain, bytes4OfList_bytes4List]
  have hlen : be32 (bytes4OfList (s.lengthCounted.plain a)) = f.packetLength := by rw [hlenf, be32_be32bytes]
  have hbounds : lengthInBounds s.lengthCounted.lCfg (be32 (bytes4OfList (s.lengthCounted.plain a))) = true := by
    rw [hlen]
    exact (lengthInBounds_toNat _ _).2 ⟨hf.lower, hf.upper⟩
  have h0 : be32 (bytes4OfList (s.lengthCounted.plain a)) ≠ 0 := by
    rw [hlen]
    exact packetLength_ne_zero hf.wf
  rw [State.begun, offerEvents_frameRead rfl (by decide) ha]
  show offerEvents E (continueFrame a (clearRead s.lengthCounted)) = _
  rw [continueFrame_length (s := s.lengthCounted) hi.2, lengthStage_startsBody hbounds h0, hlen, hlenf]
  rfl

/-- The body and the MAC of a frame that fits end it. -/
theorem offerEvents_frameBody {s : State} {f : WireFrame} {a b : List Byte} (hf : FrameFits s f)
    (hb : b.length = f.packetLength.toNat) (hplain : (s.bodyAwaited f a).plain b = frameBody f) :
    offerEvents (b.map .byte ++ f.mac.map .byte) ((s.bodyAwaited f a).readingWith f.packetLength)
      = (s.frameEnd f ((s.bodyAwaited f a).csAfter b) (4 + f.packetLength.toNat + f.mac.length), []) := by
  have h : InFrame s (s.bodyAwaited f a) 4 := ⟨rfl, rfl, rfl, rfl, rfl, rfl, rfl, rfl, rfl, rfl, rfl⟩
  rw [offerEvents_frameRead h.1 (packetLength_ne_zero hf.wf) hb, continueFrame_body (by rfl)]
  exact offerEvents_afterBody hf (h.consume _) rfl rfl hplain

/-- What the wire bytes of a whole frame end in: `CS` is what the two `Decrypt` calls leave. -/
def State.wholeFrameEnd (s : State) (f : WireFrame) : State :=
  s.frameEnd f
    (if s.cfg.cipherActive then (decryptFrame s.cs ((frameWire s.cfg s.cs f).take (4 + f.packetLength.toNat))).1
      else s.cs)
    (frameWire s.cfg s.cs f).length

/-- The bytes of a frame that fits, offered to the DECODE_FRAME that starts in `s`: four length bytes, the body
and the MAC. -/
theorem offerEvents_wholeFrame {s : State} {f : WireFrame} (hi : s.Idle) (hf : FrameFits s f) :
    offerEvents ((frameWire s.cfg s.cs f).map .byte) s.begun = (s.wholeFrameEnd f, []) := by
  obtain ⟨a, b, ha, hb, hw, hplain, hcipher⟩ := frameWire_parts hf.wf s.cfg s.cs
  have hlength : s.lengthCounted.plain a = bytes4List (be32bytes f.packetLength) :=
    plain_eq (fun h => (hplain h).1) fun h => (hcipher h (hf.encryptable h)).1
  have hbody : (s.bodyAwaited f a).plain b = frameBody f := by
    refine plain_eq (fun h => (hplain h).2) fun h => ?_
    have hcs : (s.bodyAwaited f a).cs = (decrypt s.cs a).1 := if_pos h
    rw [hcs]
    exact (hcipher h (hf.encryptable h)).2
  have htake : (frameWire s.cfg s.cs f).take (4 + f.packetLength.toNat) = a ++ b := by
    rw [hw, ← List.append_assoc]
    exact List.take_left' (by simp [ha, hb])
  rw [State.wholeFrameEnd, htake, ← bodyAwaited_csAfter s f ha, frameWire_length hf.wf, hw, List.map_append,
    List.map_append, offerEvents_frameLength hi hf ha hlength, offerEvents_frameBody hf hb hbody]

theorem begun_tReady (s : State) : s.begun.tReady = true :=
  (tReady_iff _).2 ⟨rfl, show (0 : Word) < 4 by decide⟩

/-- A run of one step for each byte of a frame that fits, offered one by one. -/
theorem run_wholeFrame {s : State} {f : WireFrame} (hi : s.Idle) (hf : FrameFits s f) (rest : List Line) :
    Host.Core.run Sys2Proof.core (frameWire s.cfg s.cs f).length
        { s.begun with script := byteLines (frameWire s.cfg s.cs f) ++ rest }
      = .next { s.wholeFrameEnd f with script := rest } :=
  run_bytes_all (offerEvents_wholeFrame hi hf) rest

/-- The same run over the FRAME itself (R88). -/
theorem run_wholeFrameLine {s : State} {f : WireFrame} (hi : s.Idle) (hf : FrameFits s f) (rest : List Line) :
    Host.Core.run Sys2Proof.core (frameWire s.cfg s.cs f).length { s.begun with script := .frame f :: rest }
      = .next { s.wholeFrameEnd f with script := rest } := by
  rw [run_frame f rest (begun_tReady s) (by rw [frameWire_length hf.wf]; omega)]
  exact run_wholeFrame hi hf rest

/-- Settles O46. -/
theorem aWholeFrameCommitsWithItsPayload : Obligations.AWholeFrameCommitsWithItsPayload := by
  intro f s hI hi hw hwf hlower hupper hmac henc w t u
  exact ⟨frameWire_length hwf _ _, exec_decodeFrame_begins hi hw,
    run_wholeFrameLine hi ⟨hwf, hlower, hupper, hmac, henc⟩⟩

/-- What the two round-trip statements share: a DECODE_FRAME word, and then lines whose run is that of a whole
frame whose MAC is the computed one (R152). -/
theorem roundTrip {s : State} {f : WireFrame} {c : BitVec 33} {ls : List Line} (hi : s.Idle)
    (hw : cfgWellFormed s.bufCap s.cfg = true)
    (hmac : s.cfg.macActive = true → Config.macCompute s.seq (be32bytes f.packetLength) (frameBody f) = f.mac)
    (hs : s.script = .command c :: ls) (hc : decodeCommand c = .decodeFrame)
    (hrun : Host.Core.run Sys2Proof.core (frameWire s.cfg s.cs f).length { s.begun with script := ls }
      = .next { s.wholeFrameEnd f with script := [] }) :
    ∃ u, Host.Core.run Sys2Proof.core (1 + (frameWire s.cfg s.cs f).length) s = .next u
      ∧ u.responses = s.responses ++ [⟨.decodeFrame, .ok f.payload⟩]
      ∧ u.Idle ∧ u.seq = s.seq + 1 ∧ u.script = [] ∧ u.cur = s.cur + (frameWire s.cfg s.cs f).length := by
  have hstep : step s = .next { s.begun with script := ls } := by
    rw [step_takes (pre := []) (by simp) (lineStep_command c ((cmdReady_iff s).2 hi.1)) hs]
    show exec (decodeCommand c) { s with script := ls } = _
    rw [hc, exec_decodeFrame_begins (s := { s with script := ls }) hi hw]
    rfl
  rw [Nat.add_comm]
  refine ⟨_, (run_succ _ hstep).trans hrun, ?_⟩
  rw [State.wholeFrameEnd, State.frameEnd, if_neg fun hn => hn.2 (hmac hn.1)]
  exact ⟨rfl, ⟨rfl, rfl⟩, rfl, rfl, rfl⟩

/-- The encoder's frame fits where the premises of the round-trip law hold. -/
theorem referenceFrame_fits {s : State} {payload : List Byte} {p : Byte} {padding : List Byte}
    (h : EncoderAccepts payload p padding)
    (hlower : s.cfg.minFrameSize.toNat ≤ (referenceFrame s.cfg s.seq payload p padding).packetLength.toNat)
    (hupper : (referenceFrame s.cfg s.seq payload p padding).packetLength.toNat ≤ s.cfg.maxFrameSize.toNat)
    (hmac : s.cfg.macActive = true →
      (referenceFrame s.cfg s.seq payload p padding).mac.length = s.cfg.macLength.toNat)
    (henc : s.cfg.cipherActive = true → Encryptable s.cs
      (bytes4List (be32bytes (referenceFrame s.cfg s.seq payload p padding).packetLength)
        ++ frameBody (referenceFrame s.cfg s.seq payload p padding))) :
    FrameFits s (referenceFrame s.cfg s.seq payload p padding) := by
  refine ⟨referenceFrame_wf _ _ h, hlower, hupper, ?_, henc⟩
  split
  · next ha => exact hmac ha
  · next ha => simp [referenceFrame, senderMac, ha]

/-- Settles O47: the FRAME line is the lines of its bytes. -/
theorem theRoundTripLawHolds : Obligations.TheRoundTripLawHolds := by
  intro c payload padding w p s hI hi f hs hc hw hwf hlower hupper hmac henc
  have hacc := accepts_of_encodeFrame hw
  obtain rfl : frameWire s.cfg s.cs f = w := Option.some.inj ((encodeFrame_of_accepts _ _ _ hacc).symm.trans hw)
  have hfits := referenceFrame_fits hacc hlower hupper hmac henc
  exact roundTrip hi hwf (fun ha => (if_pos ha).symm) hs hc (run_wholeFrameLine hi hfits [])

/-- Settles O53: the bytes are offered as they are. -/
theorem theRoundTripLawHoldsByteByByte : Obligations.TheRoundTripLawHoldsByteByByte := by
  intro c payload padding w p s hI hi f hs hc hw hwf hlower hupper hmac henc
  have hacc := accepts_of_encodeFrame hw
  obtain rfl : frameWire s.cfg s.cs f = w := Option.some.inj ((encodeFrame_of_accepts _ _ _ hacc).symm.trans hw)
  have hrun := run_wholeFrame hi (referenceFrame_fits hacc hlower hupper hmac henc) []
  rw [List.append_nil] at hrun
  exact roundTrip hi hwf (fun ha => (if_pos ha).symm) hs hc hrun

end Sys2Proof.Machine
